-- ==== Sys2Proof/Word.lean ====
section
/-! DEFINITION. The word types of WDG64 (00_scope.md section 6, rules R8, R12): all values are unsigned,
and bit 0 is the bit of weight 1. -/

namespace Sys2Proof

/-- A generator word: `state`, `weyl`, `M`, `INC`, the mixer's input and output, a response (u64, rule R8). -/
abbrev Word := BitVec 64

/-- A 32-bit half of a word: the extractor's outputs and the operand of `reverse32` (u32, rule R8). -/
abbrev Half := BitVec 32

/-- The command word `cmd[2:0]` of a request (u3, 30_encoding.md rule R61). -/
abbrev Cmd := BitVec 3

/-- The select operand `sel = {REV, HALF}` of the extractor (u2, 43_output_extractor.md rule R136). -/
abbrev Sel := BitVec 2

/-- One byte, as the host's interface hands command words over (notes/assumptions/8.md). -/
abbrev Byte := BitVec 8

/-- Bit 0 is 1: the side condition of `M` and `INC` (00_scope.md rules R6, R7). -/
def isOdd {n : Nat} (x : BitVec n) : Bool := x.getLsbD 0

end Sys2Proof
end

