-- ==== Sys2Proof/Syntax.lean ====
section
/-! DEFINITION. The five commands of WDG64 (30_encoding.md rules R62, R63), one constructor per row of
spec/opcode_table.json. -/

namespace Sys2Proof

/-- A command. None has an operand (rule R63). The two bits that `GEN64` ignores choose among four spellings of
the one command (rule R64), so they are no field of it (notes/assumptions/9.md). -/
inductive Instr where
  | next32Lo   -- NEXT32.LO  (rule R150)
  | next32Hi   -- NEXT32.HI  (rule R151)
  | next32Lor  -- NEXT32.LOR (rule R152)
  | next32Hir  -- NEXT32.HIR (rule R153)
  | gen64      -- GEN64      (rule R112)
deriving DecidableEq, Repr

end Sys2Proof
end

