-- ==== Sys2Proof/WellFormed.lean ====
section
/-! DEFINITION. What is well formed: every command, and every pair of odd constants. -/

namespace Sys2Proof

/-- Every command is well formed: there is no operand that could be out of range (30_encoding.md rules R63, R64). -/
def Instr.wellFormed : Instr → Bool
  | .next32Lo => true
  | .next32Hi => true
  | .next32Lor => true
  | .next32Hir => true
  | .gen64 => true

/-- A configuration is a WDG64 when both constants are odd (00_scope.md rules R6, R7; 93_implementation_defined.md U1). -/
def constantsWellFormed (m inc : Word) : Bool := isOdd m && isOdd inc

end Sys2Proof
end

