-- ==== Sys2Proof/Decode.lean ====
section
/-! DEFINITION. The command encoding (30_encoding.md rules R61 to R65): decoder, encoder, the rows of the
encoding summary, and the mnemonics. -/

namespace Sys2Proof

/-- Bit 2 of a command word: 1 asks for the whole word (rule R61). -/
def fieldW64 (c : Cmd) : Bool := c.getLsbD 2

/-- Bit 1 of a command word: 1 asks for the bit-reversed half (rule R61). -/
def fieldRev (c : Cmd) : Bool := c.getLsbD 1

/-- Bit 0 of a command word: 1 selects the high half (rule R61). -/
def fieldHalf (c : Cmd) : Bool := c.getLsbD 0

/-- The select operand `sel = cmd[1:0] = {REV, HALF}` (rule R61). -/
def fieldSel (c : Cmd) : Sel := c.extractLsb' 0 2

/-- The command a command word stands for. Total: no encoding is illegal or reserved, and with `W64 = 1` the other
two bits are ignored (rules R62, R64). -/
def decode (c : Cmd) : Instr :=
  match fieldW64 c, fieldRev c, fieldHalf c with
  | true, _, _ => .gen64
  | false, false, false => .next32Lo
  | false, false, true => .next32Hi
  | false, true, false => .next32Lor
  | false, true, true => .next32Hir

/-- The command word with the given three fields (rule R61). -/
def packFields (w64 rev half : Bool) : Cmd :=
  BitVec.ofBool w64 ++ BitVec.ofBool rev ++ BitVec.ofBool half

/-- The canonical command word of a command (rules R62, R64). -/
def encode : Instr → Cmd
  | .next32Lo => packFields false false false
  | .next32Hi => packFields false false true
  | .next32Lor => packFields false true false
  | .next32Hir => packFields false true true
  | .gen64 => packFields true false false

/-- One row of the encoding summary: a command word `c` selects the row when `c AND mask = pattern`
(30_encoding.md section 7). -/
structure EncodingRow where
  pattern : Cmd
  mask : Cmd
deriving DecidableEq, Repr

/-- The row of each command in the encoding summary (30_encoding.md section 7). -/
def encodingRow : Instr → EncodingRow
  | .next32Lo => ⟨0x0#3, 0x7#3⟩
  | .next32Hi => ⟨0x1#3, 0x7#3⟩
  | .next32Lor => ⟨0x2#3, 0x7#3⟩
  | .next32Hir => ⟨0x3#3, 0x7#3⟩
  | .gen64 => ⟨0x4#3, 0x4#3⟩

/-- Whether a command word selects a row. -/
def EncodingRow.selects (row : EncodingRow) (c : Cmd) : Bool := c &&& row.mask == row.pattern

/-- Why bytes handed over by the host's interface are no command. -/
inductive DecodeRefusal where
  /-- Bits 7..3 of the byte are not all 0: there is one command length, 3 bits (rule R65; safe). -/
  | notACommandWord
  /-- There is no byte to read (safe). -/
  | noByte
deriving DecidableEq, Repr

/-- The command word a byte carries: bits 2..0, the others being 0 (notes/assumptions/8.md). -/
def commandWordOfByte (b : Byte) : Except DecodeRefusal Cmd :=
  if b.extractLsb' 3 5 = 0#5 then .ok (b.extractLsb' 0 3) else .error .notACommandWord

/-- Decode the first byte of a list, one command a byte, and return the bytes after it. Total on any bytes. -/
def decodeBytes : List Byte → Except DecodeRefusal (Instr × List Byte)
  | [] => .error .noByte
  | b :: rest =>
    match commandWordOfByte b with
    | .ok c => .ok (decode c, rest)
    | .error e => .error e

/-- The bytes of a number of `nbits` bits, the first byte holding bits 7..0. -/
def tableBytes (nbits w : Nat) : List Byte :=
  (List.range ((nbits + 7) / 8)).map fun k => BitVec.ofNat 8 (w / 2 ^ (8 * k))

/-- The command word of a number as spec/opcode_table.json numbers its bits: one byte, bits 7..3 zero. -/
def tableCommandWord (nbits w : Nat) : Option Cmd :=
  match tableBytes nbits w with
  | [b] => match commandWordOfByte b with
    | .ok c => some c
    | .error _ => none
  | _ => none

/-- The command the decoder reads from a number as spec/opcode_table.json numbers its bits; none where it refuses. -/
def decodeTableWord (nbits w : Nat) : Option Instr :=
  match decodeBytes (tableBytes nbits w) with
  | .ok (i, []) => some i
  | _ => none

/-- The mnemonic's letters (rules R62, R70). -/
def Instr.letters : Instr → List Char
  | .next32Lo => ['N', 'E', 'X', 'T', '3', '2', '.', 'L', 'O']
  | .next32Hi => ['N', 'E', 'X', 'T', '3', '2', '.', 'H', 'I']
  | .next32Lor => ['N', 'E', 'X', 'T', '3', '2', '.', 'L', 'O', 'R']
  | .next32Hir => ['N', 'E', 'X', 'T', '3', '2', '.', 'H', 'I', 'R']
  | .gen64 => ['G', 'E', 'N', '6', '4']

/-- What a disassembler prints for a command word; all four words of `GEN64` print alike (rule R64). -/
def disassemble (c : Cmd) : List Char := (decode c).letters

end Sys2Proof
end

