-- ==== Sys2Proof/Config.lean ====
section
/-! DEFINITION. What an instance fixes when it is built: the odd constants `M` and `INC`
(00_scope.md rules R6, R7). The spec leaves their values open (91_not_in_source.md N1, N2), and so does the model. -/

namespace Sys2Proof

/-- The constants of an instance, with the proofs of oddness that make it a WDG64
(00_scope.md rules R6, R7; 93_implementation_defined.md U1). -/
structure Params where
  m : Word
  inc : Word
  mOdd : isOdd m = true
  incOdd : isOdd inc = true
deriving DecidableEq, Repr

/-- Why a pair of constants is no configuration (static: raised when an instance is built, never by a step; safe). -/
inductive ConfigRefusal where
  /-- `M` is even: the mixer would be no bijection (93_implementation_defined.md U1; safe). -/
  | evenMultiplier
  /-- `INC` is even: the accumulator would have no full period (93_implementation_defined.md U1; safe). -/
  | evenIncrement
deriving DecidableEq, Repr

/-- Build the constants of an instance, refusing even ones (93_implementation_defined.md U1, 60_exceptions.md rule R166). -/
def Params.check (m inc : Word) : Except ConfigRefusal Params :=
  if hm : isOdd m = true then
    if hi : isOdd inc = true then .ok ⟨m, inc, hm, hi⟩ else .error .evenIncrement
  else .error .evenMultiplier

/-- Bits 63..1 of the machine's `M`. Open: the spec gives no value (91_not_in_source.md N1; notes/assumptions/1.md). -/
opaque Config.multiplierHigh : BitVec 63

/-- Bits 63..1 of the machine's `INC`. Open: the spec gives no value (91_not_in_source.md N2; notes/assumptions/1.md). -/
opaque Config.incrementHigh : BitVec 63

/-- A word whose lowest bit is 1 and whose other bits are `high`; every odd word is one. -/
def oddWord (high : BitVec 63) : Word := high ++ 1#1

theorem isOdd_oddWord (high : BitVec 63) : isOdd (oddWord high) = true := by
  unfold isOdd oddWord
  rw [BitVec.getLsbD_append]
  rfl

/-- The constants of the machine: any odd `M` and any odd `INC` (00_scope.md rules R6, R7; notes/assumptions/1.md). -/
def Config.params : Params where
  m := oddWord Config.multiplierHigh
  inc := oddWord Config.incrementHigh
  mOdd := isOdd_oddWord _
  incOdd := isOdd_oddWord _

/-- Evidence set P0 of 00_scope.md section 4. Evidence only: not claimed to be the hardware's constants. -/
def Params.p0 : Params := ⟨0x6EED0E9DA4D94A4F#64, 0x9E3779B97F4A7C15#64, by decide, by decide⟩

/-- Evidence set P1 of 00_scope.md section 4. Evidence only. -/
def Params.p1 : Params := ⟨1#64, 1#64, by decide, by decide⟩

/-- Evidence set P2 of 00_scope.md section 4. Evidence only. -/
def Params.p2 : Params := ⟨3#64, 5#64, by decide, by decide⟩

end Sys2Proof
end

