-- ==== Sys2Proof/Machine/Extractor.lean ====
section
/-! DEFINITION. The output extractor: half selection, bit reversal, the multiplexer
(43_output_extractor.md rules R125 to R136). -/

namespace Sys2Proof.Machine

/-- The top 32 bits (rule R125). -/
def high32 (x : Word) : Half := x.extractLsb' 32 32

/-- The bottom 32 bits (rule R126). -/
def low32 (x : Word) : Half := x.extractLsb' 0 32

/-- Bit-order reversal: bit `i` of the result is bit `31 - i` of `v`. This functional definition is the normative one
(rule R127). -/
def reverse32 (v : Half) : Half := BitVec.ofFnLE fun i => v.getLsbD (31 - i)

/-- Stage 1: swap adjacent bits (rule R129). -/
def swapBits (v : Half) : Half := ((v >>> 1) &&& 0x55555555#32) ||| ((v &&& 0x55555555#32) <<< 1)

/-- Stage 2: swap 2-bit groups (rule R130). -/
def swapPairs (v : Half) : Half := ((v >>> 2) &&& 0x33333333#32) ||| ((v &&& 0x33333333#32) <<< 2)

/-- Stage 3: swap nibbles (rule R131). -/
def swapNibbles (v : Half) : Half := ((v >>> 4) &&& 0x0F0F0F0F#32) ||| ((v &&& 0x0F0F0F0F#32) <<< 4)

/-- Stage 4: swap bytes (rule R132). -/
def swapBytes (v : Half) : Half := ((v >>> 8) &&& 0x00FF00FF#32) ||| ((v &&& 0x00FF00FF#32) <<< 8)

/-- Stage 5: swap 16-bit halves (rule R133). -/
def swapHalves (v : Half) : Half := (v >>> 16) ||| (v <<< 16)

/-- The five stages in the source's order (rule R128). -/
def reversalStages : List (Half → Half) := [swapBits, swapPairs, swapNibbles, swapBytes, swapHalves]

/-- A series of stages, the first of the list first. -/
def throughStages (stages : List (Half → Half)) (v : Half) : Half := stages.foldl (fun u stage => stage u) v

/-- The network of five stages in series (rule R128). -/
def reverseNetwork (v : Half) : Half := throughStages reversalStages v

/-- The high half, reversed (rule R134). -/
def high32Reversed (x : Word) : Half := reverse32 (high32 x)

/-- The low half, reversed (rule R135). -/
def low32Reversed (x : Word) : Half := reverse32 (low32 x)

/-- The half-select multiplexer and the reversal network with its bypass, `sel = {REV, HALF}` (rule R136). -/
def extract (sel : Sel) (x : Word) : Half :=
  let h := if sel.getLsbD 0 then high32 x else low32 x
  if sel.getLsbD 1 then reverse32 h else h

/-- `zext_64` of a projection: the layout of a 32-bit result in the response word (30_encoding.md rule R66). -/
def zext64 (h : Half) : Word := h.setWidth 64

end Sys2Proof.Machine
end

