-- ==== Sys2Proof/Machine/Mixer.lean ====
section
/-! DEFINITION. The diffusion mixer (40_diffusion_mixer.md rules R80 to R84) and its inverse (rules R85, R86). -/

namespace Sys2Proof.Machine

/-- `x *64 M` (rules R81, R84, R85). -/
def mixMultiply (m x : Word) : Word := x * m

/-- `a`: the top 32 bits, the value that is shifted (rule R82; 90_conflicts.md C1). -/
def mixValue (y : Word) : Half := y.extractLsb' 32 32

/-- `b`: the top 4 bits, the distance it is shifted by, 0..15 (rule R82; 90_conflicts.md C1). -/
def mixDistance (y : Word) : BitVec 4 := y.extractLsb' 60 4

/-- `y ^ zext_64(a >> b)` with a logical shift (rule R83). -/
def mixXor (y : Word) : Word := y ^^^ (mixValue y >>> (mixDistance y).toNat).setWidth 64

/-- The mixer (rule R80). -/
def diffuse (m x : Word) : Word := mixMultiply m (mixXor (mixMultiply m x))

/-- One Newton step towards the inverse of `m` modulo 2^64; it doubles the number of right low bits. -/
def inverseStep (m x : Word) : Word := x * (2#64 - m * x)

/-- `M_inv`: the inverse of an odd `m` modulo 2^64 (rule R85). `m` itself has three right bits, and five Newton steps
make them 96; the inverse is unique, so how it is found is no choice of value (notes/assumptions/13.md). -/
def inverseOfOdd (m : Word) : Word :=
  inverseStep m (inverseStep m (inverseStep m (inverseStep m (inverseStep m m))))

/-- The inverse function of the mixer. It is no part of the hardware (rule R86). -/
def undiffuse (m r : Word) : Word :=
  mixMultiply (inverseOfOdd m) (mixXor (mixMultiply (inverseOfOdd m) r))

end Sys2Proof.Machine
end

