-- ==== Sys2Proof/Machine/State.lean ====
section
/-! DEFINITION. The state of one instance and of its requester's side of the port, and the state after reset. -/

namespace Sys2Proof.Machine

/-- The whole architectural state of an instance: "exactly two registers" (10_state.md rule R20). Every one of the
2^128 values is legal (rules R21, R22, R25). -/
structure Regs where
  /-- The generator state register: the most recently produced generator word (rule R21). -/
  state : Word
  /-- The Weyl accumulator (rule R22). -/
  weyl : Word
deriving DecidableEq, Repr

/-- The reset values of the registers (10_state.md rule R24). -/
def Regs.reset : Regs := { state := 0#64, weyl := 0#64 }

/-- The input pins at one rising edge of `clk` (30_encoding.md rule R67). -/
structure Cycle where
  /-- Synchronous reset, active high. -/
  rst : Bool
  /-- A request is presented. -/
  reqValid : Bool
  /-- The command word; sampled only when a request is accepted. -/
  reqCmd : Cmd
deriving DecidableEq, Repr

/-- One instance with the requester's side of its port. `regs` is all the state the spec gives the block
(10_state.md rules R20, R32). `inputs` and `responses` are the MODEL's own fields: what the requester will present
and what it has been given (notes/assumptions/2.md, notes/assumptions/3.md). -/
structure State where
  /-- The two registers. -/
  regs : Regs
  /-- The pins at the coming rising edges of `clk`, the next one first (notes/assumptions/2.md). -/
  inputs : List Cycle
  /-- The responses of the requests accepted so far, the oldest first (notes/assumptions/3.md). -/
  responses : List Word
deriving DecidableEq, Repr

/-- No fault exists: "there are no recoverable or fatal conditions" (60_exceptions.md rules R165, R166;
notes/assumptions/10.md). -/
inductive Fault where
deriving DecidableEq, Repr

/-- Why a command would have no meaning. No step of this model raises one (60_exceptions.md rule R166). -/
inductive Refusal where
  /-- Asked for by the host's interface. Raised by nobody: all five commands have their meaning. Safe. -/
  | notModelled (mnemonic : String)
deriving DecidableEq, Repr

/-- The machine right after reset: both registers 0 (10_state.md rule R24), nothing presented and nothing answered
(DESIGN CHOICE for the model's own fields: notes/assumptions/2.md, notes/assumptions/3.md). -/
def State.reset : State := { regs := Regs.reset, inputs := [], responses := [] }

end Sys2Proof.Machine
end

