-- ==== Sys2Proof/Machine/Weyl.lean ====
section
/-! DEFINITION. The Weyl accumulator's step (41_weyl_accumulator.md rules R100 to R102). -/

namespace Sys2Proof.Machine

/-- `w + INC`, the carry dropped (rules R100, R101). The hardware has it at 64 bits (00_scope.md rule R8); the width is
an argument because the full-period law is stated at every width (rules R103, R106). -/
def weylNext {n : Nat} (inc w : BitVec n) : BitVec n := w + inc

end Sys2Proof.Machine
end

