-- ==== Sys2Proof/Machine/Ops.lean ====
section
/-! DEFINITION. The operations every command shares: the advance of the registers, the response, the acceptance of a
request, reset. There is no memory (20_memory.md rule R40) and no exception to take or return from
(60_exceptions.md rules R165, R170), so no operation here is about either. -/

namespace Sys2Proof.Machine

/-- The advance operation, one atomic transition of the two registers (42_generator_core.md rule R110): the mixer reads
the OLD `state`, the sum takes the NEW accumulator value, both registers are written together. -/
def advance (p : Params) (r : Regs) : Regs :=
  let weyl' := weylNext p.inc r.weyl
  { state := diffuse p.m r.state + weyl', weyl := weyl' }

/-- The inverse of the advance. It is no operation of the hardware (42_generator_core.md rule R117). -/
def retreat (p : Params) (r : Regs) : Regs :=
  { state := undiffuse p.m (r.state - r.weyl), weyl := r.weyl - p.inc }

/-- The response word as one expression of the command word and the new generator word (30_encoding.md rule R66). -/
def response (c : Cmd) (word : Word) : Word :=
  if fieldW64 c then word else zext64 (extract (fieldSel c) word)

/-- The port `rsp_data`: a combinational function of the current registers and `req_cmd`. It shows the response of the
step that the closing edge would commit, never the current `state` (30_encoding.md rule R69). It is a response only
while a request is accepted (notes/assumptions/7.md). -/
def rspData (p : Params) (r : Regs) (c : Cmd) : Word := response c (advance p r).state

/-- The step of the transaction-level model: `(state, weyl)` and a command word give `(state', weyl')` and a response
(30_encoding.md rule R60). -/
def transact (p : Params) (c : Cmd) (r : Regs) : Regs × Word :=
  let r' := advance p r
  (r', response c r'.state)

/-- Accept one request: advance the registers once and hand over the given projection of the NEW generator word
(10_state.md rule R23, 44_generator_interface.md rule R154). -/
def acceptRequest (p : Params) (project : Word → Word) (s : State) : State :=
  let r' := advance p s.regs
  { s with regs := r', responses := s.responses ++ [project r'.state] }

/-- An edge with `rst = 1`: both registers become 0, whatever they held; no response is given
(70_reset_and_hazards.md rule R185). -/
def resetEdge (s : State) : State := { s with regs := Regs.reset }

/-- The pins when the requester presents nothing; `reqCmd` is not sampled then (30_encoding.md rule R67). -/
def Cycle.idle : Cycle := { rst := false, reqValid := false, reqCmd := 0#3 }

/-- The pins that present the request with command word `c`. -/
def Cycle.request (c : Cmd) : Cycle := { rst := false, reqValid := true, reqCmd := c }

/-- The pins of a reset edge without a request. -/
def Cycle.resetPulse : Cycle := { rst := true, reqValid := false, reqCmd := 0#3 }

/-- The pins at the next rising edge, and the state in which that edge has been taken from the list. With nothing more
to present the requester is idle (70_reset_and_hazards.md rule R190; notes/assumptions/4.md). -/
def nextCycle (s : State) : Cycle × State :=
  match s.inputs with
  | [] => (Cycle.idle, s)
  | c :: rest => (c, { s with inputs := rest })

end Sys2Proof.Machine
end

