-- ==== Sys2Proof/Machine/Gen64.lean ====
section
/-! DEFINITION. The meaning of `GEN64` (42_generator_core.md rule R112). -/

namespace Sys2Proof.Machine

/-- `GEN64`: all 64 bits of the new word, never the old one (rule R112). -/
def execGen64 (s : State) : Host.Outcome State Fault Refusal :=
  .next (acceptRequest Config.params (fun word => word) s)

end Sys2Proof.Machine
end

