-- ==== Sys2Proof/Machine/Next32.lean ====
section
/-! DEFINITION. The meanings of the four `NEXT32` commands (44_generator_interface.md rules R150 to R153). -/

namespace Sys2Proof.Machine

/-- `NEXT32.LO`: the low half of the new word (rule R150). -/
def execNext32Lo (s : State) : Host.Outcome State Fault Refusal :=
  .next (acceptRequest Config.params (fun word => zext64 (low32 word)) s)

/-- `NEXT32.HI`: the high half of the new word, moved down to bits 31..0 (rule R151). -/
def execNext32Hi (s : State) : Host.Outcome State Fault Refusal :=
  .next (acceptRequest Config.params (fun word => zext64 (high32 word)) s)

/-- `NEXT32.LOR`: the low half of the new word, bit-reversed (rule R152). -/
def execNext32Lor (s : State) : Host.Outcome State Fault Refusal :=
  .next (acceptRequest Config.params (fun word => zext64 (low32Reversed word)) s)

/-- `NEXT32.HIR`: the high half of the new word, bit-reversed (rule R153). -/
def execNext32Hir (s : State) : Host.Outcome State Fault Refusal :=
  .next (acceptRequest Config.params (fun word => zext64 (high32Reversed word)) s)

end Sys2Proof.Machine
end

