-- ==== Sys2Proof/Machine/Dispatch.lean ====
section
/-! DEFINITION. One arm per command. -/

namespace Sys2Proof.Machine

def exec (i : Instr) (s : State) : Host.Outcome State Fault Refusal :=
  match i with
  | .next32Lo => Sys2Proof.Machine.execNext32Lo s
  | .next32Hi => Sys2Proof.Machine.execNext32Hi s
  | .next32Lor => Sys2Proof.Machine.execNext32Lor s
  | .next32Hir => Sys2Proof.Machine.execNext32Hir s
  | .gen64 => Sys2Proof.Machine.execGen64 s

end Sys2Proof.Machine
end

