-- ==== Sys2Proof/Machine/Edge.lean ====
section
/-! DEFINITION. What one rising edge of `clk` does (30_encoding.md rule R68). -/

namespace Sys2Proof.Machine

/-- One rising edge with the pins `c`: reset wins over a request; a request is always accepted when `rst = 0`; without
either, both registers keep their values (30_encoding.md rule R68, 60_exceptions.md rule R168, 10_state.md rule R23). -/
def edge (c : Cycle) (s : State) : Host.Outcome State Fault Refusal :=
  if c.rst then .next (resetEdge s)
  else if c.reqValid then exec (decode c.reqCmd) s
  else .next s

/-- The state in which the requester presents, at the very next edge, the request that the number stands for
(notes/assumptions/2.md, notes/assumptions/8.md); a number that is no command word presents nothing. -/
def presentTableWord (s : State) (nbits w : Nat) : State :=
  match tableCommandWord nbits w with
  | some c => { s with inputs := Cycle.request c :: s.inputs }
  | none => s

end Sys2Proof.Machine
end

