-- ==== Sys2Proof/Machine/Step.lean ====
section
/-! DEFINITION. One step of the machine: one rising edge of `clk` (notes/assumptions/4.md). -/

namespace Sys2Proof.Machine

/-- Take the pins of the next edge and let the edge happen. -/
def step (s : State) : Host.Outcome State Fault Refusal :=
  edge (nextCycle s).1 (nextCycle s).2

/-- The request with the given command word is presented at the next edge: WDG64 fetches nothing, its requester presents
its commands (10_state.md rule R26; notes/assumptions/2.md). -/
def State.withFetchWord (s : State) (nbits w : Nat) : State := presentTableWord s nbits w

end Sys2Proof.Machine
end

