-- ==== Sys2Proof/Machine/Assembler.lean ====
section
/-! DEFINITION. The spec's notation for listings and programs (30_encoding.md rules R70, R71): what each line stands for,
and how its text is read (notes/assumptions/14.md). -/

namespace Sys2Proof.Machine

/-- The mode word of the pseudo-form `NEXT32 <mode>` (rule R71). -/
inductive Mode where
  | lo | hi | lor | hir
deriving DecidableEq, Repr

/-- One line of a listing (rules R70, R71). -/
inductive AsmLine where
  /-- A command's mnemonic. -/
  | command (i : Instr)
  /-- The pseudo-form `NEXT32 <mode>`. -/
  | next32 (mode : Mode)
  /-- `.times <n> <command>`. -/
  | times (n : Nat) (i : Instr)
  /-- `.reset`: the instance is in the reset state at this point. It is no command. -/
  | reset
deriving DecidableEq, Repr

/-- Why a listing's text is not read (static; safe). -/
inductive AsmRefusal where
  /-- The words of a line form none of the lines of rules R70 and R71 (safe). -/
  | notALine
deriving DecidableEq, Repr

/-- The single command that `NEXT32 <mode>` expands to (rule R71 (a)). -/
def Mode.command : Mode → Instr
  | .lo => .next32Lo
  | .hi => .next32Hi
  | .lor => .next32Lor
  | .hir => .next32Hir

/-- The edges a line stands for: one request with the canonical command word for a command, `n` of them for `.times`
(none for 0), one edge with `rst = 1` for `.reset` (rule R71). -/
def AsmLine.expand : AsmLine → List Cycle
  | .command i => [Cycle.request (encode i)]
  | .next32 mode => [Cycle.request (encode mode.command)]
  | .times n i => List.replicate n (Cycle.request (encode i))
  | .reset => [Cycle.resetPulse]

/-- The edges of a listing, line after line. -/
def expandListing (lines : List AsmLine) : List Cycle := (lines.map AsmLine.expand).flatten

/-- The letters of a mode word (rule R71 (a)). -/
def Mode.letters : Mode → List Char
  | .lo => ['L', 'O']
  | .hi => ['H', 'I']
  | .lor => ['L', 'O', 'R']
  | .hir => ['H', 'I', 'R']

/-- The commands, in the order of rule R62. -/
def allCommands : List Instr := [.next32Lo, .next32Hi, .next32Lor, .next32Hir, .gen64]

/-- The modes, in the order of rule R71. -/
def allModes : List Mode := [.lo, .hi, .lor, .hir]

/-- Cut a text at every separator. -/
def splitWhere (isSeparator : Char → Bool) : List Char → List (List Char)
  | [] => [[]]
  | c :: cs =>
    if isSeparator c then [] :: splitWhere isSeparator cs
    else match splitWhere isSeparator cs with
      | [] => [[c]]
      | w :: ws => (c :: w) :: ws

/-- The words of one line of text; a `;` starts a comment that runs to the end of the line (rule R70). -/
def wordsOfLine (line : List Char) : List (List Char) :=
  (splitWhere (fun c => c == ' ' || c == '\t' || c == '\r') (line.takeWhile fun c => c != ';')).filter fun w => !w.isEmpty

/-- A decimal natural number (rule R71 (b)). -/
def readDecimal (w : List Char) : Option Nat :=
  if !w.isEmpty && w.all Char.isDigit then some (w.foldl (fun n c => 10 * n + (c.toNat - 48)) 0) else none

/-- The command that some words spell: a mnemonic, or the pseudo-form `NEXT32 <mode>`. -/
def readCommand : List (List Char) → Option AsmLine
  | [w] => (allCommands.find? fun i => i.letters == w).map AsmLine.command
  | [w, mode] =>
    if w == ['N', 'E', 'X', 'T', '3', '2'] then (allModes.find? fun x => x.letters == mode).map AsmLine.next32 else none
  | _ => none

/-- The line that some words spell (rules R70, R71). -/
def readLine (ws : List (List Char)) : Except AsmRefusal AsmLine :=
  match ws with
  | ['.', 'r', 'e', 's', 'e', 't'] :: [] => .ok .reset
  | ['.', 't', 'i', 'm', 'e', 's'] :: count :: cmd =>
    match readDecimal count, readCommand cmd with
    | some n, some (.command i) => .ok (.times n i)
    | some n, some (.next32 mode) => .ok (.times n mode.command)
    | _, _ => .error .notALine
  | _ => match readCommand ws with
    | some line => .ok line
    | none => .error .notALine

/-- The lines of a listing's text; a line without words is no line. -/
def readListing (text : List Char) : Except AsmRefusal (List AsmLine) :=
  (((splitWhere (fun c => c == '\n') text).map wordsOfLine).filter fun ws => !ws.isEmpty).mapM readLine

/-- The edges that a listing's text stands for. -/
def assemble (text : List Char) : Except AsmRefusal (List Cycle) :=
  match readListing text with
  | .ok lines => .ok (expandListing lines)
  | .error e => .error e

end Sys2Proof.Machine
end

