-- ==== Sys2Proof/Machine/Run.lean ====
section
/-! DEFINITION. Runs at transaction level (00_scope.md section 6: step, run, call count; 70_reset_and_hazards.md rule R186),
and how a sequence of clock edges is cut into runs (95_test_vectors.md section 2.6). -/

namespace Sys2Proof.Machine

/-- The steps of a list of commands, in order: the registers after them and the responses, the first one first
(20_memory.md rule R46). -/
def transactAll (p : Params) : List Cmd → Regs → Regs × List Word
  | [], r => (r, [])
  | c :: cs, r =>
    let first := transact p c r
    let later := transactAll p cs first.1
    (later.1, first.2 :: later.2)

/-- The registers after `k` steps of a run from reset; the commands do not matter (42_generator_core.md rule R114). -/
def regsAfter (p : Params) (k : Nat) : Regs := (advance p)^[k] Regs.reset

/-- The generator word `s_k` of a run from reset (42_generator_core.md rule R114). -/
def generatorWord (p : Params) (k : Nat) : Word := (regsAfter p k).state

/-- Clock edges cut into runs: the commands accepted before the first reset edge, then, for each reset edge, those
accepted after it and before the next (70_reset_and_hazards.md rule R186). Idle edges and requests presented together
with `rst = 1` are steps of no run (95_test_vectors.md section 2.6). -/
def runsOf : List Cycle → List Cmd × List (List Cmd)
  | [] => ([], [])
  | c :: cs =>
    let (current, later) := runsOf cs
    if c.rst then ([], current :: later)
    else if c.reqValid then (c.reqCmd :: current, later)
    else (current, later)

/-- The registers at the end of some runs: the last run decides, and each run but the first begins at reset. -/
def regsAfterRuns (p : Params) (r : Regs) (first : List Cmd) : List (List Cmd) → Regs
  | [] => (transactAll p first r).1
  | next :: later => regsAfterRuns p Regs.reset next later

/-- All responses of some runs, run after run; each run but the first begins at reset. -/
def responsesOfRuns (p : Params) (r : Regs) (first : List Cmd) : List (List Cmd) → List Word
  | [] => (transactAll p first r).2
  | next :: later => (transactAll p first r).2 ++ responsesOfRuns p Regs.reset next later

end Sys2Proof.Machine
end

