-- ==== Sys2Proof/Machine/Instances.lean ====
section
/-! DEFINITION. Several instances side by side (60_exceptions.md rule R175, 20_memory.md rule R47), at transaction level.
Something outside the blocks decides whose request comes next (notes/assumptions/12.md). -/

namespace Sys2Proof.Machine

/-- One instance: its own constants and its own pair of registers (60_exceptions.md rule R175). -/
structure Instance where
  params : Params
  regs : Regs
deriving DecidableEq, Repr

/-- A request addressed to one of the instances, by its place in the list. -/
structure Addressed where
  target : Nat
  cmd : Cmd
deriving DecidableEq, Repr

/-- An instance right after its own reset (70_reset_and_hazards.md rules R185, R188). -/
def Instance.afterReset (p : Params) : Instance := { params := p, regs := Regs.reset }

/-- An instance after one accepted request. -/
def Instance.accept (c : Cmd) (x : Instance) : Instance := { x with regs := (transact x.params c x.regs).1 }

/-- One accepted request: the instance it is addressed to steps, no other does. A request to a place where no instance
stands reaches nobody. -/
def stepInstances (q : Addressed) (xs : List Instance) : List Instance := xs.modify q.target (Instance.accept q.cmd)

/-- Accepted requests in order. -/
def runInstances (qs : List Addressed) (xs : List Instance) : List Instance := qs.foldl (fun ys q => stepInstances q ys) xs

/-- The response the addressed instance gives, if it exists. -/
def instanceResponse (q : Addressed) (xs : List Instance) : Option Word :=
  xs[q.target]?.map fun x => (transact x.params q.cmd x.regs).2

/-- The commands among some requests that are addressed to one instance, in order. -/
def commandsTo (k : Nat) (qs : List Addressed) : List Cmd := (qs.filter fun q => q.target == k).map Addressed.cmd

end Sys2Proof.Machine
end

