-- ==== Sys2Proof/Safety.lean ====
section
/-! DEFINITION. What counts as a safe run of WDG64, in the terms the statements use. -/

namespace Sys2Proof.Safety

open Sys2Proof.Machine

/-- An instance right after reset whose requester will present the given pins. -/
def start (cycles : List Cycle) : State := { State.reset with inputs := cycles }

/-- A state from which no step ever stops, however many edges come (60_exceptions.md rule R166,
70_reset_and_hazards.md rule R190). -/
def neverStops (s : State) : Prop := ∀ n, ∃ t, Host.Core.run Sys2Proof.core n s = .next t

/-- The state is explained by a run from reset: some commands taken since the last reset give the registers it holds,
and their responses are the last ones the requester was given (10_state.md rule R23, 70_reset_and_hazards.md rule R186). -/
def explainedByARun (s : State) : Prop :=
  ∃ (cmds : List Cmd) (earlier : List Word),
    s.regs = (transactAll Config.params cmds Regs.reset).1 ∧
    s.responses = earlier ++ (transactAll Config.params cmds Regs.reset).2

end Sys2Proof.Safety
end

