-- ==== Sys2Proof/Certificates/Slice0/Obligations.lean ====
section
/-! DEFINITION. The statements about the model, from the numbered rules of spec/. A statement about `Config.params` holds for
the machine's constants, of which nothing is known but that they are odd; a statement about `p : Params` holds for every pair
of odd constants. -/

open Sys2Proof Sys2Proof.Machine Sys2Proof.Safety

/-! ### Reset, the clock edge, idling -/

/-- 10_state.md rule R24. -/
def Obligations.ResetLeavesBothRegistersZero : Prop :=
  State.reset.regs.state = 0#64 ∧ State.reset.regs.weyl = 0#64

/-- The step at an edge that presents a request runs the decoded command on the state from which that edge has been taken
(30_encoding.md rules R60, R68). -/
def Obligations.StepRunsTheDecodedCommand : Prop :=
  ∀ (s : State) (cmd : Cmd) (rest : List Cycle),
    step { s with inputs := ⟨false, true, cmd⟩ :: rest } = exec (decode cmd) { s with inputs := rest }

/-- 30_encoding.md rule R68, for every value of the pins; and only an accepted request is answered. -/
def Obligations.ClockEdgeFollowsThePins : Prop :=
  ∀ (s : State) (c : Cycle) (rest : List Cycle),
    ∃ t, step { s with inputs := c :: rest } = .next t ∧
      t.inputs = rest ∧
      t.regs = (if c.rst = true then { state := 0#64, weyl := 0#64 }
        else if c.reqValid = true then advance Config.params s.regs else s.regs) ∧
      t.responses.length = s.responses.length + (if c.rst = false ∧ c.reqValid = true then 1 else 0) ∧
      s.responses <+: t.responses

/-- A reset edge, with or without a request: both registers become 0 whatever they held, and the request is not accepted
(70_reset_and_hazards.md rule R185, 60_exceptions.md rule R168). -/
def Obligations.ResetEdgeWinsOverARequest : Prop :=
  ∀ (s : State) (reqValid : Bool) (cmd : Cmd) (rest : List Cycle),
    step { s with inputs := ⟨true, reqValid, cmd⟩ :: rest } =
      .next { s with regs := { state := 0#64, weyl := 0#64 }, inputs := rest }

/-- Edges without reset and without a request change neither register and answer nothing, however many there are
(10_state.md rule R23, 70_reset_and_hazards.md rule R190). That an empty list of pins is an edge without a request is the
model's choice (notes/assumptions/4.md). -/
def Obligations.IdleEdgesHoldBothRegisters : Prop :=
  (∀ (idle rest : List Cycle) (s : State), (∀ c ∈ idle, c.rst = false ∧ c.reqValid = false) →
    Host.Core.run Sys2Proof.core idle.length { s with inputs := idle ++ rest } = .next { s with inputs := rest }) ∧
  (∀ (n : Nat) (s : State),
    Host.Core.run Sys2Proof.core n { s with inputs := [] } = .next { s with inputs := [] })

/-- The first request may come in the edge after reset, and it is answered with the first generator word, which is `INC`
(70_reset_and_hazards.md rule R189). -/
def Obligations.FirstRequestMayFollowResetAtOnce : Prop :=
  ∀ (s : State) (reqValid : Bool) (ignored cmd : Cmd) (rest : List Cycle),
    Host.Core.run Sys2Proof.core 2 { s with inputs := ⟨true, reqValid, ignored⟩ :: ⟨false, true, cmd⟩ :: rest } =
      .next { regs := { state := Config.params.inc, weyl := Config.params.inc }
              inputs := rest
              responses := s.responses ++ [response cmd Config.params.inc] }

/-! ### The five commands -/

/-- `NEXT32.LO` (44_generator_interface.md rule R150): encoding, completion in every state, all fields of the next state,
the response bit by bit, the worked example. -/
def Obligations.Next32LoAnswersTheLowHalf : Prop :=
  decode 0b000#3 = .next32Lo ∧
  (∀ s : State, ∃ t rsp, exec .next32Lo s = .next t ∧
    t.regs = advance Config.params s.regs ∧ t.inputs = s.inputs ∧ t.responses = s.responses ++ [rsp] ∧
    ∀ i, rsp.getLsbD i = (decide (i < 32) && t.regs.state.getLsbD i)) ∧
  transact Params.p0 0b000#3 Regs.reset =
    ({ state := 0x9E3779B97F4A7C15#64, weyl := 0x9E3779B97F4A7C15#64 }, 0x000000007F4A7C15#64)

/-- `NEXT32.HI` (44_generator_interface.md rule R151). -/
def Obligations.Next32HiAnswersTheHighHalf : Prop :=
  decode 0b001#3 = .next32Hi ∧
  (∀ s : State, ∃ t rsp, exec .next32Hi s = .next t ∧
    t.regs = advance Config.params s.regs ∧ t.inputs = s.inputs ∧ t.responses = s.responses ++ [rsp] ∧
    ∀ i, rsp.getLsbD i = (decide (i < 32) && t.regs.state.getLsbD (32 + i))) ∧
  (transact Params.p0 0b001#3 Regs.reset).2 = 0x000000009E3779B9#64

/-- `NEXT32.LOR` (44_generator_interface.md rule R152). -/
def Obligations.Next32LorAnswersTheLowHalfReversed : Prop :=
  decode 0b010#3 = .next32Lor ∧
  (∀ s : State, ∃ t rsp, exec .next32Lor s = .next t ∧
    t.regs = advance Config.params s.regs ∧ t.inputs = s.inputs ∧ t.responses = s.responses ++ [rsp] ∧
    ∀ i, rsp.getLsbD i = (decide (i < 32) && t.regs.state.getLsbD (31 - i))) ∧
  (transact Params.p0 0b010#3 Regs.reset).2 = 0x00000000A83E52FE#64

/-- `NEXT32.HIR` (44_generator_interface.md rule R153). -/
def Obligations.Next32HirAnswersTheHighHalfReversed : Prop :=
  decode 0b011#3 = .next32Hir ∧
  (∀ s : State, ∃ t rsp, exec .next32Hir s = .next t ∧
    t.regs = advance Config.params s.regs ∧ t.inputs = s.inputs ∧ t.responses = s.responses ++ [rsp] ∧
    ∀ i, rsp.getLsbD i = (decide (i < 32) && t.regs.state.getLsbD (63 - i))) ∧
  (transact Params.p0 0b011#3 Regs.reset).2 = 0x000000009D9EEC79#64

/-- `GEN64` (42_generator_core.md rule R112): its four command words, completion in every state, all fields of the next
state, the first response of a run, the worked example. -/
def Obligations.Gen64AnswersTheWholeNewWord : Prop :=
  (decode 0b100#3 = .gen64 ∧ decode 0b101#3 = .gen64 ∧ decode 0b110#3 = .gen64 ∧ decode 0b111#3 = .gen64 ∧
    encode .gen64 = 0b100#3) ∧
  (∀ s : State, exec .gen64 s = .next
    { regs := advance Config.params s.regs
      inputs := s.inputs
      responses := s.responses ++ [diffuse Config.params.m s.regs.state + (s.regs.weyl + Config.params.inc)] }) ∧
  (∃ t, exec .gen64 State.reset = .next t ∧ t.responses = [Config.params.inc]) ∧
  (transactAll Params.p0 [0b100#3, 0b100#3] Regs.reset).2 = [0x9E3779B97F4A7C15#64, 0x449FF2AED7CBD8D3#64]

/-- The response of every command word as the one expression of rule R66, and it is what the port `rsp_data` shows before
the edge (30_encoding.md rules R66, R69). -/
def Obligations.ResponseIsOneExpressionOfTheCommandWord : Prop :=
  ∀ (cmd : Cmd) (s : State), ∃ t rsp, exec (decode cmd) s = .next t ∧
    t.responses = s.responses ++ [rsp] ∧
    rsp = (if cmd.getLsbD 2 = true then t.regs.state
      else (extract (cmd.extractLsb' 0 2) t.regs.state).setWidth 64) ∧
    (cmd.getLsbD 2 = false → rsp.extractLsb' 32 32 = 0#32) ∧
    rsp = rspData Config.params s.regs cmd

/-- One command, one advance, whatever the command; both sums are modulo 2^64, the mixer reads the old `state`, the sum
takes the new accumulator value (42_generator_core.md rules R110, R113). -/
def Obligations.EveryCommandAdvancesBothRegistersOnce : Prop :=
  (∀ (i : Instr) (s : State), ∃ t, exec i s = .next t ∧ t.regs = advance Config.params s.regs) ∧
  (∀ (p : Params) (r : Regs),
    (advance p r).weyl.toNat = (r.weyl.toNat + p.inc.toNat) % 2 ^ 64 ∧
    (advance p r).state.toNat = ((diffuse p.m r.state).toNat + (advance p r).weyl.toNat) % 2 ^ 64)

/-- The accumulator's new value depends on the accumulator alone: neither `state` nor the command has influence on it
(41_weyl_accumulator.md rule R105). -/
def Obligations.AccumulatorDependsOnNothingElse : Prop :=
  ∀ (i j : Instr) (s u : State), s.regs.weyl = u.regs.weyl →
    ∃ s' u', exec i s = .next s' ∧ exec j u = .next u' ∧
      s'.regs.weyl = s.regs.weyl + Config.params.inc ∧ u'.regs.weyl = s'.regs.weyl

/-- No command reads without advancing: every one changes the accumulator (20_memory.md rule R44). -/
def Obligations.EveryCommandChangesTheAccumulator : Prop :=
  ∀ (i : Instr) (s : State), ∃ t, exec i s = .next t ∧ t.regs.weyl ≠ s.regs.weyl

/-- Two consecutive generator words determine the accumulator (10_state.md rule R33). -/
def Obligations.TwoWordsDetermineTheAccumulator : Prop :=
  ∀ (i : Instr) (s : State), ∃ t, exec i s = .next t ∧
    t.regs.weyl = t.regs.state - diffuse Config.params.m s.regs.state

/-- The first generator word of every run is `INC`, and after the first step `state = weyl = INC`
(42_generator_core.md rule R115). -/
def Obligations.FirstWordOfEveryRunIsTheIncrement : Prop :=
  (∀ (i : Instr) (s : State), s.regs = { state := 0#64, weyl := 0#64 } →
    ∃ t, exec i s = .next t ∧ t.regs = { state := Config.params.inc, weyl := Config.params.inc }) ∧
  (∀ p : Params, generatorWord p 1 = p.inc)

/-! ### The diffusion mixer -/

/-- The four steps of the mixer in exact arithmetic (40_diffusion_mixer.md rules R80 to R84). -/
def Obligations.MixerIsTheFourStepArithmetic : Prop :=
  ∀ (m x : Word),
    (diffuse m x).toNat =
      (let y := x.toNat * m.toNat % 2 ^ 64
       (y ^^^ (y / 2 ^ 32) / 2 ^ (y / 2 ^ 60)) * m.toNat % 2 ^ 64)

/-- The exclusive or of step 3 (40_diffusion_mixer.md rule R83): the distance is at most 15, the width in which `a` is held
does not matter, and only bits 31-b..0 can change. -/
def Obligations.MixerXorChangesOnlyLowBits : Prop :=
  ∀ y : Word,
    mixXor y = y ^^^ (mixValue y >>> (mixDistance y).toNat).setWidth 64 ∧
    mixXor y = y ^^^ ((y >>> 32) >>> (y >>> 60).toNat) ∧
    (mixDistance y).toNat ≤ 15 ∧
    (mixXor y).extractLsb' 32 32 = y.extractLsb' 32 32 ∧
    ∀ i, 31 - (mixDistance y).toNat < i → (mixXor y).getLsbD i = y.getLsbD i

/-- The multiplication law (40_diffusion_mixer.md rule R85). -/
def Obligations.OddMultiplierHasOneInverse : Prop :=
  (∀ m : Word, isOdd m = true →
    m * inverseOfOdd m = 1#64 ∧
    (∀ n : Word, m * n = 1#64 → n = inverseOfOdd m) ∧
    (∀ x, mixMultiply (inverseOfOdd m) (mixMultiply m x) = x ∧ mixMultiply m (mixMultiply (inverseOfOdd m) x) = x)) ∧
  (∀ m x : Word, (mixMultiply m x).toNat = x.toNat * m.toNat % 2 ^ 64 ∧
    mixMultiply m x = BitVec.ofInt 64 (x.toInt * m.toInt)) ∧
  inverseOfOdd Params.p0.m = 0x2F72B4215A3D8CAF#64 ∧ inverseOfOdd Params.p1.m = 1#64 ∧
  inverseOfOdd Params.p2.m = 0xAAAAAAAAAAAAAAAB#64

/-- The mixer is a bijection and `undiffuse` is its inverse (40_diffusion_mixer.md rule R86). -/
def Obligations.MixerIsABijectionUndoneByUndiffuse : Prop :=
  (∀ y : Word, mixValue (mixXor y) = mixValue y ∧ mixDistance (mixXor y) = mixDistance y ∧ mixXor (mixXor y) = y) ∧
  ∀ m : Word, isOdd m = true →
    Function.Bijective (diffuse m) ∧
    (∀ x, undiffuse m (diffuse m x) = x) ∧ (∀ r, diffuse m (undiffuse m r) = r)

/-- Zero is a fixed point of the mixer, whatever the multiplier (40_diffusion_mixer.md rule R87). -/
def Obligations.ZeroIsAFixedPointOfTheMixer : Prop :=
  (∀ m : Word, diffuse m 0#64 = 0#64) ∧ ∀ p : Params, generatorWord p 1 = p.inc

/-- The corner cases of the shift (40_diffusion_mixer.md rule R88, (a) to (c)). -/
def Obligations.MixerShiftCornerCases : Prop :=
  (∀ y : Word, y.toNat < 2 ^ 60 → mixDistance y = 0#4 ∧ mixXor y = y ^^^ (y >>> 32)) ∧
  (∀ y : Word, 0xF000000000000000 ≤ y.toNat →
    mixDistance y = 15#4 ∧ mixXor y = y ^^^ (y.extractLsb' 47 17).setWidth 64 ∧
    ∀ i, 17 ≤ i → (mixXor y).getLsbD i = y.getLsbD i) ∧
  (∀ m x : Word, (mixMultiply m x).toNat < 2 ^ 32 →
    mixValue (mixMultiply m x) = 0#32 ∧ mixDistance (mixMultiply m x) = 0#4 ∧
    mixXor (mixMultiply m x) = mixMultiply m x ∧ diffuse m x = x * m * m)

/-! ### The Weyl accumulator -/

/-- The addition law: a wrap subtracts 2^64 and nothing else happens; signedness does not matter
(41_weyl_accumulator.md rules R100, R101). -/
def Obligations.AccumulatorWrapsSilently : Prop :=
  ∀ inc w : Word,
    (weylNext inc w).toNat =
      (if w.toNat + inc.toNat < 2 ^ 64 then w.toNat + inc.toNat else w.toNat + inc.toNat - 2 ^ 64) ∧
    weylNext inc w = BitVec.ofInt 64 (w.toInt + inc.toInt)

/-- The full period, at every width (41_weyl_accumulator.md rule R103). -/
def Obligations.OddIncrementHasFullPeriodAtEveryWidth : Prop :=
  ∀ (n : Nat) (inc w : BitVec n), isOdd inc = true →
    Function.Bijective (fun k : Fin (2 ^ n) => w + BitVec.ofNat n (k.val * inc.toNat)) ∧
    (∀ v, ∃ k, k < 2 ^ n ∧ (weylNext inc)^[k] w = v) ∧
    (weylNext inc)^[2 ^ n] w = w ∧
    (∀ j, 0 < j → j < 2 ^ n → (weylNext inc)^[j] w ≠ w)

/-- The closed form (41_weyl_accumulator.md rule R104, 10_state.md rule R27): after any `k` accepted requests, from any
state, the accumulator has moved by `k * INC`. -/
def Obligations.AccumulatorCountsAcceptedRequests : Prop :=
  ∀ (s : State) (cmds : List Cmd) (rest : List Cycle),
    ∃ t, Host.Core.run Sys2Proof.core cmds.length
        { s with inputs := cmds.map (fun c => ⟨false, true, c⟩) ++ rest } = .next t ∧
      t.inputs = rest ∧
      t.regs.weyl = s.regs.weyl + BitVec.ofNat 64 (cmds.length * Config.params.inc.toNat)

/-! ### Runs -/

/-- The recurrence of a run from reset, and the generator words are the same for every sequence of commands
(42_generator_core.md rule R114). -/
def Obligations.WordsFollowTheRecurrenceWhateverTheCommands : Prop :=
  (∀ (p : Params) (k : Nat),
    (regsAfter p k).weyl = BitVec.ofNat 64 (k * p.inc.toNat) ∧
    generatorWord p (k + 1) = diffuse p.m (generatorWord p k) + BitVec.ofNat 64 ((k + 1) * p.inc.toNat)) ∧
  (∀ cmds : List Cmd, ∃ t,
    Host.Core.run Sys2Proof.core cmds.length (start (cmds.map fun c => ⟨false, true, c⟩)) = .next t ∧
    t.regs = regsAfter Config.params cmds.length)

/-- One request consumes one whole generator word: the `k`-th response of a run is the projection, by the `k`-th command,
of the `k`-th generator word (44_generator_interface.md rules R154, R156). -/
def Obligations.EachRequestConsumesOneWholeWord : Prop :=
  ∀ cmds : List Cmd, ∃ t,
    Host.Core.run Sys2Proof.core cmds.length (start (cmds.map fun c => ⟨false, true, c⟩)) = .next t ∧
    t.responses.length = cmds.length ∧
    (∀ (k : Nat) (c : Cmd), cmds[k]? = some c →
      t.responses[k]? = some (response c (generatorWord Config.params (k + 1)))) ∧
    t.regs = regsAfter Config.params cmds.length ∧
    t.regs.weyl = BitVec.ofNat 64 (cmds.length * Config.params.inc.toNat)

/-- The period from below (42_generator_core.md rule R116): (a) no pair of register values comes twice within fewer than
2^64 steps, from any start; (b) nothing but a multiple of 2^64 is a period of the words, not even from some point on. -/
def Obligations.NoPeriodBelowTheAccumulators : Prop :=
  (∀ (p : Params) (r : Regs) (j k : Nat), j < k → k < j + 2 ^ 64 → (advance p)^[j] r ≠ (advance p)^[k] r) ∧
  (∀ (p : Params) (period : Nat), ¬ 2 ^ 64 ∣ period →
    ∀ k0, ∃ k, k0 ≤ k ∧ generatorWord p (k + period) ≠ generatorWord p k)

/-- The advance is a bijection on the register pairs and `retreat` is its inverse (42_generator_core.md rule R117). -/
def Obligations.AdvanceIsABijectionUndoneByRetreat : Prop :=
  ∀ p : Params, Function.Bijective (advance p) ∧
    (∀ r, retreat p (advance p r) = r) ∧ (∀ r, advance p (retreat p r) = r)

/-- Every run is purely periodic: it returns to its reset pair and only then repeats; the period is a multiple of 2^64 and
at most 2^128 (42_generator_core.md rules R116, R117). -/
def Obligations.RunReturnsToResetBeforeItRepeats : Prop :=
  ∀ p : Params, ∃ period : Nat, 0 < period ∧ period ≤ 2 ^ 128 ∧ 2 ^ 64 ∣ period ∧
    regsAfter p period = Regs.reset ∧
    (∀ k, regsAfter p (k + period) = regsAfter p k) ∧
    (∀ j k, j < k → k < period → regsAfter p j ≠ regsAfter p k)

/-- Registers and pins alone decide what comes: two machines that agree in both, whatever was answered before, go through the
same registers and give the same further responses (00_scope.md rule R10, 10_state.md rule R32). -/
def Obligations.RegistersAndInputsDecideEverything : Prop :=
  ∀ (n : Nat) (s u : State), s.regs = u.regs → s.inputs = u.inputs →
    ∃ s' u' further, Host.Core.run Sys2Proof.core n s = .next s' ∧ Host.Core.run Sys2Proof.core n u = .next u' ∧
      s'.regs = u'.regs ∧ s'.inputs = u'.inputs ∧
      s'.responses = s.responses ++ further ∧ u'.responses = u.responses ++ further

/-- An invariant every step keeps, from every state that has it: the registers are those of some run from reset, and the last
responses are that run's (10_state.md rule R23, 70_reset_and_hazards.md rule R186). -/
def Obligations.StepKeepsTheStateExplainedByARun : Prop :=
  ∀ s t : State, explainedByARun s → step s = .next t → explainedByARun t

/-- The invariant holds right after reset, whatever the requester will present. -/
def Obligations.FreshStateIsExplainedByARun : Prop :=
  explainedByARun State.reset ∧ ∀ cycles : List Cycle, explainedByARun (start cycles)

/-- The clocked block refines the transaction-level model: any sequence of edges leaves the registers and gives the responses
of the runs it is cut into; idle edges are in no run, a request at a reset edge is in no run, a reset edge begins the next run
(30_encoding.md rules R60, R68; 70_reset_and_hazards.md rule R186; 95_test_vectors.md section 2.6).That reset and idle
edges are steps, and that one record of responses is kept over reset edges, are the model's choices
(notes/assumptions/4.md, notes/assumptions/3.md). -/
def Obligations.ClockedTraceRefinesTransactionRuns : Prop :=
  ∀ (cycles rest : List Cycle) (s : State),
    ∃ t, Host.Core.run Sys2Proof.core cycles.length { s with inputs := cycles ++ rest } = .next t ∧
      t.inputs = rest ∧
      t.regs = regsAfterRuns Config.params s.regs (runsOf cycles).1 (runsOf cycles).2 ∧
      t.responses = s.responses ++ responsesOfRuns Config.params s.regs (runsOf cycles).1 (runsOf cycles).2

/-! ### The output extractor -/

/-- Split and join (43_output_extractor.md rule R139). -/
def Obligations.HalvesJoinToTheWord : Prop :=
  ∀ x : Word,
    (zext64 (high32 x) <<< 32) ||| zext64 (low32 x) = x ∧
    (zext64 (high32 x) <<< 32) &&& zext64 (low32 x) = 0#64 ∧
    (high32 x ++ low32 x : BitVec (32 + 32)) = x

/-- Bit reversal: every bit, the corner values, the fixed points (43_output_extractor.md rule R127). -/
def Obligations.ReversalMovesEveryBit : Prop :=
  (∀ (v : Half) (i : Nat), i < 32 → (reverse32 v).getLsbD i = v.getLsbD (31 - i)) ∧
  (∀ v : Half, reverse32 v = v ↔ ∀ i, i < 32 → v.getLsbD i = v.getLsbD (31 - i)) ∧
  reverse32 0#32 = 0#32 ∧ reverse32 0xFFFFFFFF#32 = 0xFFFFFFFF#32 ∧ reverse32 1#32 = 0x80000000#32 ∧
  reverse32 0x80000000#32 = 1#32 ∧ reverse32 0x80000001#32 = 0x80000001#32 ∧
  reverse32 0x00018000#32 = 0x00018000#32 ∧ reverse32 0x0000FFFF#32 = 0xFFFF0000#32 ∧
  reverse32 0x12345678#32 = 0x1E6A2C48#32

/-- Bit reversal is an involution (43_output_extractor.md rule R137). -/
def Obligations.ReversalIsAnInvolution : Prop :=
  (∀ v : Half, reverse32 (reverse32 v) = v) ∧ Function.Bijective reverse32

/-- The five-stage network computes the functional reversal: each stage moves position `i` to `i xor 2^(k-1)` and is an
involution, and the stages give the same function in any order (43_output_extractor.md rules R128, R138). -/
def Obligations.StagedNetworkReversesInAnyOrder : Prop :=
  (∀ (k : Nat) (stage : Half → Half), reversalStages[k]? = some stage →
    (∀ v i, i < 32 → (stage v).getLsbD i = v.getLsbD (i ^^^ 2 ^ k)) ∧ ∀ v, stage (stage v) = v) ∧
  (∀ v : Half, reverseNetwork v = reverse32 v) ∧
  (∀ (stages : List (Half → Half)) (v : Half), stages.Perm reversalStages → throughStages stages v = reverse32 v)

/-- The reversed projections bit by bit, and their worked examples (43_output_extractor.md rules R134, R135). -/
def Obligations.ReversedProjectionsBitByBit : Prop :=
  (∀ (x : Word) (i : Nat), i < 32 →
    (high32Reversed x).getLsbD i = x.getLsbD (63 - i) ∧ (low32Reversed x).getLsbD i = x.getLsbD (31 - i)) ∧
  (∀ x : Word, high32Reversed x = reverse32 (high32 x) ∧ low32Reversed x = reverse32 (low32 x)) ∧
  high32Reversed 0x0123456789ABCDEF#64 = 0xE6A2C480#32 ∧ low32Reversed 0x0123456789ABCDEF#64 = 0xF7B3D591#32

/-- Full-word reversal; each projection determines its own half and says nothing about the other
(43_output_extractor.md rule R140). -/
def Obligations.ReversedHalvesJoinToTheReversedWord : Prop :=
  (∀ (x : Word) (i : Nat), i < 64 →
    (low32Reversed x ++ high32Reversed x : BitVec (32 + 32)).getLsbD i = x.getLsbD (63 - i)) ∧
  (∀ x : Word, x = (reverse32 (high32Reversed x) ++ reverse32 (low32Reversed x) : BitVec (32 + 32))) ∧
  (∀ hi lo : Half,
    low32 (hi ++ lo : BitVec (32 + 32)) = lo ∧ low32Reversed (hi ++ lo : BitVec (32 + 32)) = reverse32 lo ∧
    high32 (hi ++ lo : BitVec (32 + 32)) = hi ∧ high32Reversed (hi ++ lo : BitVec (32 + 32)) = reverse32 hi)

/-- The multiplexer's table and its worked example (43_output_extractor.md rule R136). -/
def Obligations.ExtractSelectsThenReverses : Prop :=
  (∀ x : Word, extract 0b00#2 x = low32 x ∧ extract 0b01#2 x = high32 x ∧
    extract 0b10#2 x = reverse32 (low32 x) ∧ extract 0b11#2 x = reverse32 (high32 x)) ∧
  extract 0b11#2 0x9E3779B97F4A7C15#64 = 0x9D9EEC79#32

/-! ### Encoding, notation, configuration -/

/-- Every command word decodes, three of them as aliases of `GEN64`, and all four words of `GEN64` print alike
(30_encoding.md rule R64). The words are written out bit by bit from rule R62. -/
def Obligations.EveryCommandWordIsDefined : Prop :=
  decode 0b000#3 = .next32Lo ∧ decode 0b001#3 = .next32Hi ∧ decode 0b010#3 = .next32Lor ∧ decode 0b011#3 = .next32Hir ∧
  decode 0b100#3 = .gen64 ∧ decode 0b101#3 = .gen64 ∧ decode 0b110#3 = .gen64 ∧ decode 0b111#3 = .gen64 ∧
  encode .gen64 = 0b100#3 ∧
  ∀ c : Cmd, c.getLsbD 2 = true → disassemble c = ['G', 'E', 'N', '6', '4']

/-- Decoding an encoded command gives it back, also through the byte form of the host's interface (whose layout is the
model's choice, notes/assumptions/8.md); encoding a decoded word gives the canonical word. -/
def Obligations.DecodeAndEncodeAgree : Prop :=
  (∀ i : Instr, decode (encode i) = i ∧ decodeTableWord 8 (encode i).toNat = some i) ∧
  (∀ c : Cmd, encode (decode c) = if c.getLsbD 2 = true then 0b100#3 else c)

/-- The rows of the encoding summary partition the command words, and the decoder follows them (30_encoding.md section 7). -/
def Obligations.EncodingRowsPartitionTheCommandWords : Prop :=
  ∀ c : Cmd, (encodingRow (decode c)).selects c = true ∧ ∀ i : Instr, (encodingRow i).selects c = true → i = decode c

/-- The pseudo-forms and directives of listings (30_encoding.md rule R71). -/
def Obligations.ListingLinesExpandAsTheSpecSays : Prop :=
  ((AsmLine.next32 .lo).expand = (AsmLine.command .next32Lo).expand ∧
    (AsmLine.next32 .hi).expand = (AsmLine.command .next32Hi).expand ∧
    (AsmLine.next32 .lor).expand = (AsmLine.command .next32Lor).expand ∧
    (AsmLine.next32 .hir).expand = (AsmLine.command .next32Hir).expand) ∧
  (∀ (n : Nat) (i : Instr), (AsmLine.times n i).expand = expandListing (List.replicate n (.command i))) ∧
  (∀ i : Instr, (AsmLine.times 0 i).expand = []) ∧
  (∀ (s : State) (rest : List Cycle), step { s with inputs := AsmLine.reset.expand ++ rest } =
    .next { s with regs := { state := 0#64, weyl := 0#64 }, inputs := rest }) ∧
  (∀ (i : Instr) (s : State) (rest : List Cycle), step { s with inputs := (AsmLine.command i).expand ++ rest } =
    exec i { s with inputs := rest })

/-- Exactly the pairs of odd constants are configurations, and an even one is refused by name (00_scope.md rules R6, R7;
93_implementation_defined.md U1). The last clause is about the model's choice of how its open constants are built
(notes/assumptions/1.md): `oddWord` reaches every odd word. It says nothing of the machine's own constants. -/
def Obligations.OnlyOddConstantsMakeAConfiguration : Prop :=
  (∀ m inc : Word, isOdd m = true → isOdd inc = true → ∃ p, Params.check m inc = .ok p ∧ p.m = m ∧ p.inc = inc) ∧
  (∀ m inc : Word, isOdd m = false → Params.check m inc = .error .evenMultiplier) ∧
  (∀ m inc : Word, isOdd m = true → isOdd inc = false → Params.check m inc = .error .evenIncrement) ∧
  (∀ p : Params, p.m.getLsbD 0 = true ∧ p.inc.getLsbD 0 = true) ∧
  (∀ x : Word, isOdd x = true → ∃ high, oddWord high = x)

/-! ### Absence of faults, several instances -/

/-- Every command word in every state gives a next state and one response (60_exceptions.md rules R165, R166). -/
def Obligations.NoCommandFaultsOrIsRefused : Prop :=
  (∀ (cmd : Cmd) (s : State), ∃ t rsp, exec (decode cmd) s = .next t ∧ t.responses = s.responses ++ [rsp]) ∧
  (∀ s : State, ∃ t, step s = .next t)

/-- A run has no end of its own: any number of steps from any state gives a next state
(70_reset_and_hazards.md rule R190, 42_generator_core.md rule R116). -/
def Obligations.NoRunEverStops : Prop := ∀ s : State, neverStops s

/-- Instances share nothing: what an instance holds after any requests to all of them depends on its own requests alone; and
two instances with the same constants, both fresh from reset, hold the same after equally many requests
(60_exceptions.md rule R175, 20_memory.md rule R47). -/
def Obligations.InstancesShareNothing : Prop :=
  (∀ (qs : List Addressed) (xs : List Instance) (k : Nat) (x : Instance), xs[k]? = some x →
    (runInstances qs xs)[k]? = some { x with regs := (transactAll x.params (commandsTo k qs) x.regs).1 }) ∧
  (∀ (qs : List Addressed) (xs : List Instance) (j k : Nat) (p : Params),
    xs[j]? = some (Instance.afterReset p) → xs[k]? = some (Instance.afterReset p) →
    (commandsTo j qs).length = (commandsTo k qs).length →
    (runInstances qs xs)[j]? = (runInstances qs xs)[k]?)
end

