-- ==== Sys2Proof/Laws/Bits.lean ====
section
/-! SUPPORT. The extractor and the mixer bit by bit: one lemma per function. -/

namespace Sys2Proof.Laws

open Sys2Proof.Machine

theorem getLsbD_high32 (x : Word) (i : Nat) : (high32 x).getLsbD i = (decide (i < 32) && x.getLsbD (32 + i)) := by
  simp only [high32, BitVec.getLsbD_extractLsb']

theorem getLsbD_low32 (x : Word) (i : Nat) : (low32 x).getLsbD i = (decide (i < 32) && x.getLsbD i) := by
  simp only [low32, BitVec.getLsbD_extractLsb', Nat.zero_add]

theorem getLsbD_reverse32 (v : Half) (i : Nat) :
    (reverse32 v).getLsbD i = (decide (i < 32) && v.getLsbD (31 - i)) := by
  rw [reverse32, BitVec.getLsbD_ofFnLE]
  by_cases h : i < 32 <;> simp [h]

theorem getLsbD_zext64 (h : Half) (i : Nat) : (zext64 h).getLsbD i = (decide (i < 64) && h.getLsbD i) := by
  simp only [zext64, BitVec.getLsbD_setWidth]

theorem getLsbD_mixValue (y : Word) (i : Nat) :
    (mixValue y).getLsbD i = (decide (i < 32) && y.getLsbD (32 + i)) := by
  simp only [mixValue, BitVec.getLsbD_extractLsb']

theorem getLsbD_mixXor (y : Word) (i : Nat) (hi : i < 64) :
    (mixXor y).getLsbD i = (y.getLsbD i ^^ (mixValue y).getLsbD ((mixDistance y).toNat + i)) := by
  simp only [mixXor, BitVec.getLsbD_xor, BitVec.getLsbD_setWidth, BitVec.getLsbD_ushiftRight, hi, decide_true,
    Bool.true_and]

theorem mixDistance_lt (y : Word) : (mixDistance y).toNat < 16 := (mixDistance y).isLt

end Sys2Proof.Laws
end

