-- ==== Sys2Proof/Laws/Decode.lean ====
section
/-! SUPPORT. The decoder on each of the eight command words, and on bytes. -/

namespace Sys2Proof.Laws

@[simp] theorem decode_000 : decode 0#3 = .next32Lo := rfl
@[simp] theorem decode_001 : decode 1#3 = .next32Hi := rfl
@[simp] theorem decode_010 : decode 2#3 = .next32Lor := rfl
@[simp] theorem decode_011 : decode 3#3 = .next32Hir := rfl
@[simp] theorem decode_100 : decode 4#3 = .gen64 := rfl
@[simp] theorem decode_101 : decode 5#3 = .gen64 := rfl
@[simp] theorem decode_110 : decode 6#3 = .gen64 := rfl
@[simp] theorem decode_111 : decode 7#3 = .gen64 := rfl

/-- What the byte-wise decoder can answer. -/
theorem decodeBytes_ok {bytes rest : List Byte} {i : Instr} (h : decodeBytes bytes = .ok (i, rest)) :
    ∃ b c, bytes = b :: rest ∧ commandWordOfByte b = .ok c ∧ i = decode c := by
  cases bytes with
  | nil => cases h
  | cons b bs =>
    cases hc : commandWordOfByte b with
    | error e => simp [decodeBytes, hc] at h
    | ok c =>
      simp only [decodeBytes, hc, Except.ok.injEq, Prod.mk.injEq] at h
      exact ⟨b, c, by rw [h.2], hc, h.1.symm⟩

end Sys2Proof.Laws
end

