-- ==== Sys2Proof/Laws/Instances.lean ====
section
/-! SUPPORT. What a request addressed to one of several instances does to each of them. -/

namespace Sys2Proof.Laws

open Sys2Proof.Machine

theorem stepInstances_target {q : Addressed} {xs : List Instance} {x : Instance} (h : xs[q.target]? = some x) :
    (stepInstances q xs)[q.target]? = some { x with regs := advance x.params x.regs } := by
  simp [stepInstances, h, Instance.accept, transact]

theorem stepInstances_other {q : Addressed} {k : Nat} (hk : q.target ≠ k) (xs : List Instance) :
    (stepInstances q xs)[k]? = xs[k]? := by
  simp [stepInstances, hk]

theorem runInstances_cons (q : Addressed) (qs : List Addressed) (xs : List Instance) :
    runInstances (q :: qs) xs = runInstances qs (stepInstances q xs) := rfl

end Sys2Proof.Laws
end

