-- ==== Sys2Proof/Laws/State.lean ====
section
/-! SUPPORT. One lemma per field per update of the state, so that no proof unfolds an update. -/

namespace Sys2Proof.Laws

open Sys2Proof.Machine

@[simp] theorem reset_regs : State.reset.regs = Regs.reset := rfl
@[simp] theorem reset_inputs : State.reset.inputs = [] := rfl
@[simp] theorem reset_responses : State.reset.responses = [] := rfl
@[simp] theorem regs_reset_state : Regs.reset.state = 0#64 := rfl
@[simp] theorem regs_reset_weyl : Regs.reset.weyl = 0#64 := rfl

@[simp] theorem advance_state (p : Params) (r : Regs) :
    (advance p r).state = diffuse p.m r.state + weylNext p.inc r.weyl := rfl
@[simp] theorem advance_weyl (p : Params) (r : Regs) : (advance p r).weyl = weylNext p.inc r.weyl := rfl

@[simp] theorem retreat_state (p : Params) (r : Regs) :
    (retreat p r).state = undiffuse p.m (r.state - r.weyl) := rfl
@[simp] theorem retreat_weyl (p : Params) (r : Regs) : (retreat p r).weyl = r.weyl - p.inc := rfl

@[simp] theorem acceptRequest_regs (p : Params) (f : Word → Word) (s : State) :
    (acceptRequest p f s).regs = advance p s.regs := rfl
@[simp] theorem acceptRequest_inputs (p : Params) (f : Word → Word) (s : State) :
    (acceptRequest p f s).inputs = s.inputs := rfl
@[simp] theorem acceptRequest_responses (p : Params) (f : Word → Word) (s : State) :
    (acceptRequest p f s).responses = s.responses ++ [f (advance p s.regs).state] := rfl

@[simp] theorem resetEdge_regs (s : State) : (resetEdge s).regs = Regs.reset := rfl
@[simp] theorem resetEdge_inputs (s : State) : (resetEdge s).inputs = s.inputs := rfl
@[simp] theorem resetEdge_responses (s : State) : (resetEdge s).responses = s.responses := rfl

@[simp] theorem transact_regs (p : Params) (c : Cmd) (r : Regs) : (transact p c r).1 = advance p r := rfl
@[simp] theorem transact_response (p : Params) (c : Cmd) (r : Regs) : (transact p c r).2 = rspData p r c := rfl

theorem regs_eq {a b : Regs} (hs : a.state = b.state) (hw : a.weyl = b.weyl) : a = b := by
  cases a
  cases b
  simp_all

theorem state_eq {a b : State} (hr : a.regs = b.regs) (hi : a.inputs = b.inputs)
    (hp : a.responses = b.responses) : a = b := by
  cases a
  cases b
  simp_all

end Sys2Proof.Laws
end

