-- ==== Sys2Proof/Laws/Ops.lean ====
section
/-! SUPPORT. What the shared operations, a command and a step can do, said once each; proofs cite these lemmas instead of
unfolding the machine. -/

namespace Sys2Proof.Laws

open Sys2Proof.Machine

/-- The projection of the generator word that a command answers with. -/
def projection : Instr → Word → Word
  | .next32Lo => fun word => zext64 (low32 word)
  | .next32Hi => fun word => zext64 (high32 word)
  | .next32Lor => fun word => zext64 (low32Reversed word)
  | .next32Hir => fun word => zext64 (high32Reversed word)
  | .gen64 => fun word => word

/-- Everything a command can do. -/
theorem exec_eq_acceptRequest (i : Instr) (s : State) :
    exec i s = .next (acceptRequest Config.params (projection i) s) := by
  cases i <;> rfl

/-- The inversion of a command: from its next state to what happened. -/
theorem exec_next {i : Instr} {s t : State} (h : exec i s = .next t) :
    t = acceptRequest Config.params (projection i) s := by
  rw [exec_eq_acceptRequest] at h
  cases h
  rfl

/-- A decoded command answers as the one expression of rule R66 says. -/
theorem projection_decode (c : Cmd) : projection (decode c) = response c := by
  have h : c = 0#3 ∨ c = 1#3 ∨ c = 2#3 ∨ c = 3#3 ∨ c = 4#3 ∨ c = 5#3 ∨ c = 6#3 ∨ c = 7#3 := by
    revert c
    decide
  rcases h with rfl | rfl | rfl | rfl | rfl | rfl | rfl | rfl <;> rfl

theorem exec_decode (c : Cmd) (s : State) :
    exec (decode c) s = .next (acceptRequest Config.params (response c) s) := by
  rw [exec_eq_acceptRequest, projection_decode]

/-- The three things an edge can do. -/
theorem edge_reset {c : Cycle} (h : c.rst = true) (s : State) : edge c s = .next (resetEdge s) := by
  simp [edge, h]

theorem edge_request {c : Cycle} (h : c.rst = false) (hv : c.reqValid = true) (s : State) :
    edge c s = .next (acceptRequest Config.params (response c.reqCmd) s) := by
  simp [edge, h, hv, exec_decode]

theorem edge_idle {c : Cycle} (h : c.rst = false) (hv : c.reqValid = false) (s : State) : edge c s = .next s := by
  simp [edge, h, hv]

/-- Everything an edge can do: reset, one accepted request, or nothing. -/
theorem edge_cases (c : Cycle) (s : State) :
    (c.rst = true ∧ edge c s = .next (resetEdge s)) ∨
    (c.rst = false ∧ c.reqValid = true ∧
      edge c s = .next (acceptRequest Config.params (response c.reqCmd) s)) ∨
    (c.rst = false ∧ c.reqValid = false ∧ edge c s = .next s) := by
  cases hr : c.rst with
  | true => exact .inl ⟨rfl, edge_reset hr s⟩
  | false =>
    cases hv : c.reqValid with
    | true => exact .inr (.inl ⟨rfl, rfl, edge_request hr hv s⟩)
    | false => exact .inr (.inr ⟨rfl, rfl, edge_idle hr hv s⟩)

/-- The pins of the next edge: the first listed, or none presented. -/
theorem nextCycle_nil {s : State} (h : s.inputs = []) : nextCycle s = (Cycle.idle, s) := by
  simp [nextCycle, h]

theorem nextCycle_cons {s : State} {c : Cycle} {rest : List Cycle} (h : s.inputs = c :: rest) :
    nextCycle s = (c, { s with inputs := rest }) := by
  simp [nextCycle, h]

/-- Everything a step can do. -/
theorem step_nil {s : State} (h : s.inputs = []) : step s = .next s := by
  simp [step, nextCycle_nil h, edge, Cycle.idle]

theorem step_cons {s : State} {c : Cycle} {rest : List Cycle} (h : s.inputs = c :: rest) :
    step s = edge c { s with inputs := rest } := by
  simp [step, nextCycle_cons h]

/-- What the host's interface presents: the request whose command word the number carries. -/
theorem withFetchWord_request {s : State} {nbits w : Nat} {c : Cmd} (h : tableCommandWord nbits w = some c) :
    s.withFetchWord nbits w = { s with inputs := Cycle.request c :: s.inputs } := by
  simp [State.withFetchWord, presentTableWord, h]

theorem step_withFetchWord {s : State} {nbits w : Nat} {c : Cmd} (h : tableCommandWord nbits w = some c) :
    step (s.withFetchWord nbits w) = exec (decode c) s := by
  rw [withFetchWord_request h, step_cons rfl]
  rfl

/-- Runs of the machine, step by step. -/
@[simp] theorem core_run_zero (s : State) : Host.Core.run Sys2Proof.core 0 s = .next s := rfl

theorem core_run_succ {n : Nat} {s t : State} (h : step s = .next t) :
    Host.Core.run Sys2Proof.core (n + 1) s = Host.Core.run Sys2Proof.core n t := by
  have h' : Sys2Proof.core.step s = .next t := h
  simp only [Host.Core.run, h']

end Sys2Proof.Laws
end

