-- ==== Sys2Proof/Laws/PerInstr.lean ====
section
/-! SUPPORT. The statement made per command: a command word decodes to it exactly when it selects its row of the encoding
summary (30_encoding.md section 7, rule R64). -/

namespace Sys2Proof.Laws

/-- The command words that decode to `i` are those that select `i`'s row. -/
def RowSelects.Statement (i : Instr) : Prop := ∀ c : Cmd, decode c = i ↔ (encodingRow i).selects c = true

theorem RowSelects.next32Lo : RowSelects.Statement .next32Lo := by unfold RowSelects.Statement; decide
theorem RowSelects.next32Hi : RowSelects.Statement .next32Hi := by unfold RowSelects.Statement; decide
theorem RowSelects.next32Lor : RowSelects.Statement .next32Lor := by unfold RowSelects.Statement; decide
theorem RowSelects.next32Hir : RowSelects.Statement .next32Hir := by unfold RowSelects.Statement; decide
theorem RowSelects.gen64 : RowSelects.Statement .gen64 := by unfold RowSelects.Statement; decide

end Sys2Proof.Laws
end

