-- ==== Sys2Proof/Laws/Run.lean ====
section
/-! SUPPORT. The equations of runs and of the cut of clock edges into runs. -/

namespace Sys2Proof.Laws

open Sys2Proof.Machine

@[simp] theorem transactAll_nil (p : Params) (r : Regs) : transactAll p [] r = (r, []) := rfl

@[simp] theorem transactAll_cons (p : Params) (c : Cmd) (cs : List Cmd) (r : Regs) :
    transactAll p (c :: cs) r =
      ((transactAll p cs (advance p r)).1, rspData p r c :: (transactAll p cs (advance p r)).2) := rfl

theorem transactAll_append (p : Params) (cs ds : List Cmd) (r : Regs) :
    transactAll p (cs ++ ds) r =
      ((transactAll p ds (transactAll p cs r).1).1,
        (transactAll p cs r).2 ++ (transactAll p ds (transactAll p cs r).1).2) := by
  induction cs generalizing r with
  | nil => rfl
  | cons c cs ih => simp [ih]

@[simp] theorem runsOf_nil : runsOf [] = ([], []) := rfl

theorem runsOf_reset {c : Cycle} (h : c.rst = true) (cs : List Cycle) :
    runsOf (c :: cs) = ([], (runsOf cs).1 :: (runsOf cs).2) := by
  simp [runsOf, h]

theorem runsOf_request {c : Cycle} (h : c.rst = false) (hv : c.reqValid = true) (cs : List Cycle) :
    runsOf (c :: cs) = (c.reqCmd :: (runsOf cs).1, (runsOf cs).2) := by
  simp [runsOf, h, hv]

theorem runsOf_idle {c : Cycle} (h : c.rst = false) (hv : c.reqValid = false) (cs : List Cycle) :
    runsOf (c :: cs) = runsOf cs := by
  simp [runsOf, h, hv]

@[simp] theorem regsAfter_zero (p : Params) : regsAfter p 0 = Regs.reset := rfl

theorem regsAfter_succ (p : Params) (k : Nat) : regsAfter p (k + 1) = advance p (regsAfter p k) := by
  simp only [regsAfter, Function.iterate_succ_apply']

end Sys2Proof.Laws
end

