-- ==== Sys2Proof/Tests/Slice0.lean ====
section
/-! SUPPORT. Tests on values printed in spec/ (each names its table), the smoke tests of the checks, and one witness for the
hypotheses of each statement that has any. The machine's own constants are open, so value tests use the evidence sets. -/

namespace Sys2Proof.Tests

open Sys2Proof.Machine Sys2Proof.Safety

/-! ### The checks refuse what is ill formed (93_implementation_defined.md U1) -/

theorem test_wellFormed_refuses_evenMultiplier : constantsWellFormed 2#64 1#64 = false := by decide
theorem test_wellFormed_refuses_evenIncrement : constantsWellFormed 1#64 0x7C14#64 = false := by decide
theorem test_check_refuses_evenMultiplier : Params.check 2#64 1#64 = .error .evenMultiplier := by rfl
theorem test_check_refuses_evenIncrement : Params.check 1#64 0x7C14#64 = .error .evenIncrement := by rfl
theorem test_wellFormed_command : Instr.wellFormed .gen64 = true := by decide

/-! ### Decoding: words written out from 30_encoding.md rule R62 and section 7 -/

theorem test_decode_next32Lo : decodeTableWord 8 0b00000000 = some .next32Lo := by decide
theorem test_decode_next32Hi : decodeTableWord 8 0b00000001 = some .next32Hi := by decide
theorem test_decode_next32Lor : decodeTableWord 8 0b00000010 = some .next32Lor := by decide
theorem test_decode_next32Hir : decodeTableWord 8 0b00000011 = some .next32Hir := by decide
theorem test_decode_gen64 : decodeTableWord 8 0b00000100 = some .gen64 := by decide
theorem test_decode_gen64_aliases :
    [0b101#3, 0b110#3, 0b111#3].map decode = [.gen64, .gen64, .gen64] := by decide
theorem test_decode_refuses_wide_byte : commandWordOfByte 0b00001000#8 = .error .notACommandWord := by rfl
theorem test_decode_refuses_no_byte : decodeBytes [] = .error .noByte := by rfl
theorem test_decodeTableWord_refuses_wide_byte : decodeTableWord 8 0x0C = none := by decide
theorem test_encode_words : [Instr.next32Lo, .next32Hi, .next32Lor, .next32Hir, .gen64].map encode =
    [0b000#3, 0b001#3, 0b010#3, 0b011#3, 0b100#3] := by decide

/-! ### The mixer (40_diffusion_mixer.md section 3; 95_test_vectors.md section 2.1) -/

theorem test_diffuse_p0 :
    [1#64, 0xFFFFFFFFFFFFFFFF#64, 0x1000000000000000#64, 0x0123456789ABCDEF#64].map (diffuse Params.p0.m) =
      [0xD2E724224C47581B#64, 0x9B94506F5EF7DC07#64, 0x8B6795176B542000#64, 0x8CEE7E610E13AFD4#64] := by decide
theorem test_diffuse_p1 :
    [0x0FFFFFFFFFFFFFFF#64, 0x1000000000000000#64, 0xF000000000000000#64, 0xFEDCBA9876543210#64].map
      (diffuse Params.p1.m) =
      [0x0FFFFFFFF0000000#64, 0x1000000008000000#64, 0xF00000000001E000#64, 0xFEDCBA987655CFA9#64] := by decide
theorem test_diffuse_p2 :
    [0xFFFFFFFFFFFFFFFF#64, 0x0123456789ABCDEF#64].map (diffuse Params.p2.m) =
      [0xFFFFFFFFFFFA0006#64, 0x0A3D70A3DB402DF1#64] := by decide
theorem test_undiffuse : undiffuse Params.p0.m 1#64 = 0x4BB1C68ED2185529#64 ∧
    undiffuse Params.p2.m 1#64 = 0xE38E38E38E2AAAAB#64 := by decide

/-! ### The accumulator and the advance (41_weyl_accumulator.md section 3; 95_test_vectors.md sections 2.2, 2.3) -/

theorem test_weylNext_wraps : weylNext 5#64 0xFFFFFFFFFFFFFFFE#64 = 3#64 ∧
    weylNext 0x8000000000000001#64 0x8000000000000000#64 = 1#64 ∧
    weylNext Params.p0.inc 0xF1BBCDCBFA53E0A8#64 = 0x8FF34785799E5CBD#64 := by decide
theorem test_advance_p0 : advance Params.p0 ⟨0xFFFFFFFFFFFFFFFF#64, 0xFFFFFFFFFFFFFFFF#64⟩ =
    ⟨0x39CBCA28DE42581B#64, 0x9E3779B97F4A7C14#64⟩ := by decide
theorem test_advance_p2 : advance Params.p2 ⟨0x0123456789ABCDEF#64, 0xFEDCBA9876543210#64⟩ =
    ⟨0x091A2B3C51946006#64, 0xFEDCBA9876543215#64⟩ := by decide
theorem test_retreat_p0 : retreat Params.p0 ⟨0x449FF2AED7CBD8D3#64, 0x3C6EF372FE94F82A#64⟩ =
    ⟨0x9E3779B97F4A7C15#64, 0x9E3779B97F4A7C15#64⟩ := by decide

/-! ### The extractor (43_output_extractor.md section 5) -/

theorem test_reverse32 : [0x12345678#32, 0xDEADBEEF#32, 0x89ABCDEF#32].map reverse32 =
    [0x1E6A2C48#32, 0xF77DB57B#32, 0xF7B3D591#32] := by decide +kernel
theorem test_reversal_stages : swapBits 0x12345678#32 = 0x2138A9B4#32 ∧ swapPairs 0x2138A9B4#32 = 0x84C2A6E1#32 ∧
    swapNibbles 0x84C2A6E1#32 = 0x482C6A1E#32 ∧ swapBytes 0x482C6A1E#32 = 0x2C481E6A#32 ∧
    swapHalves 0x2C481E6A#32 = 0x1E6A2C48#32 := by decide
theorem test_extract : [0b00#2, 0b01#2, 0b10#2, 0b11#2].map (fun sel => extract sel 0x8000000000000001#64) =
    [0x00000001#32, 0x80000000#32, 0x80000000#32, 0x00000001#32] := by decide +kernel

/-! ### Commands: responses on one word (95_test_vectors.md section 2.4), and the step that runs them -/

theorem test_next32Lo_response : Laws.projection .next32Lo 0x0000000180000000#64 = 0x0000000080000000#64 := by decide
theorem test_next32Hi_response : Laws.projection .next32Hi 0x0000000180000000#64 = 0x0000000000000001#64 := by decide
theorem test_next32Lor_response : Laws.projection .next32Lor 0x004555B16887C63E#64 = 0x000000007C63E116#64 := by
  decide +kernel
theorem test_next32Hir_response : Laws.projection .next32Hir 0x004555B16887C63E#64 = 0x000000008DAAA200#64 := by
  decide +kernel
theorem test_gen64_response : Laws.projection .gen64 0x004555B16887C63E#64 = 0x004555B16887C63E#64 := by decide

theorem test_step_runs_next32Lo : step (State.reset.withFetchWord 8 0) = exec .next32Lo State.reset := by rfl
theorem test_step_runs_next32Hi : step (State.reset.withFetchWord 8 1) = exec .next32Hi State.reset := by rfl
theorem test_step_runs_next32Lor : step (State.reset.withFetchWord 8 2) = exec .next32Lor State.reset := by rfl
theorem test_step_runs_next32Hir : step (State.reset.withFetchWord 8 3) = exec .next32Hir State.reset := by rfl
theorem test_step_runs_gen64 : step (State.reset.withFetchWord 8 4) = exec .gen64 State.reset := by rfl

/-- 95_test_vectors.md program 5: every sum wraps. -/
theorem test_program_5 : transactAll Params.p2 [0b100#3, 0b000#3, 0b011#3]
      ⟨0xFFFFFFFFFFFFFFFF#64, 0xFFFFFFFFFFFFFFFF#64⟩ =
    (⟨0xFFFFFFFFFE4A02FF#64, 0x000000000000000E#64⟩,
      [0xFFFFFFFFFFFA000A#64, 0x00000000FFCFFFAC#64, 0x00000000FFFFFFFF#64]) := by decide +kernel

/-- A listing in the notation of 30_encoding.md rules R70 and R71: comments, a blank line, a pseudo-form, directives. -/
theorem test_listing_text_is_read : assemble ['.', 'r', 'e', 's', 'e', 't', ' ', ';', 'x', '\n', '\n', 'N', 'E', 'X', 'T',
      '3', '2', '.', 'L', 'O', ' ', ' ', ';', '0', '\n', 'N', 'E', 'X', 'T', '3', '2', ' ', 'H', 'I', 'R', '\n',
      '.', 't', 'i', 'm', 'e', 's', ' ', '2', ' ', 'G', 'E', 'N', '6', '4'] =
    .ok [Cycle.resetPulse, Cycle.request 0b000#3, Cycle.request 0b011#3, Cycle.request 0b100#3, Cycle.request 0b100#3] := by
  rfl
theorem test_listing_refuses_unknown_word : assemble ['N', 'O', 'P'] = .error .notALine := by rfl

/-- 95_test_vectors.md section 2.6: the trace of eight edges falls into run A and run B. -/
theorem test_trace_cut_into_runs : runsOf [⟨true, false, 0#3⟩, ⟨false, false, 0#3⟩, ⟨false, true, 0b100#3⟩,
      ⟨false, false, 0#3⟩, ⟨false, false, 0#3⟩, ⟨false, true, 0b000#3⟩, ⟨true, true, 0b100#3⟩, ⟨false, true, 0b100#3⟩] =
    ([], [[0b100#3, 0b000#3], [0b100#3]]) := by decide

/-- Two requests to the first of two instances: it holds `s_2`, `w_2` of 95_test_vectors.md section 3 (P1), the other is fresh. -/
theorem test_instances : runInstances [⟨0, 0b001#3⟩, ⟨0, 0b001#3⟩]
      [Instance.afterReset Params.p1, Instance.afterReset Params.p1] =
    [⟨Params.p1, ⟨3#64, 2#64⟩⟩, ⟨Params.p1, ⟨0#64, 0#64⟩⟩] := by decide

/-! ### Witnesses: values that meet the hypotheses of the statements, at the boundaries of their clauses -/

theorem witness_IdleEdgesHoldBothRegisters :
    ∀ c ∈ [(⟨false, false, 0b111#3⟩ : Cycle), Cycle.idle], c.rst = false ∧ c.reqValid = false := by decide

theorem witness_ResponseIsOneExpressionOfTheCommandWord :
    (0b011#3 : Cmd).getLsbD 2 = false ∧ (0b100#3 : Cmd).getLsbD 2 = true := by decide

/-- Two states with the same accumulator and different generator words. -/
theorem witness_AccumulatorDependsOnNothingElse :
    (⟨⟨1#64, 7#64⟩, [], []⟩ : State).regs.weyl = (⟨⟨2#64, 7#64⟩, [], []⟩ : State).regs.weyl := by decide

theorem witness_FirstWordOfEveryRunIsTheIncrement :
    State.reset.regs = { state := 0#64, weyl := 0#64 } := by decide

theorem witness_MixerXorChangesOnlyLowBits :
    (31 - (mixDistance 0xF000000000000000#64).toNat < 17) ∧ (31 - (mixDistance 0#64).toNat < 32) := by decide

theorem witness_OddMultiplierHasOneInverse :
    isOdd 3#64 = true ∧ (3#64 : Word) * 0xAAAAAAAAAAAAAAAB#64 = 1#64 := by decide

theorem witness_MixerIsABijectionUndoneByUndiffuse : isOdd Params.p0.m = true ∧ isOdd 1#64 = true := by decide

/-- The largest value of clause (a), the smallest of clause (b), and products at the edge of clause (c). -/
theorem witness_MixerShiftCornerCases :
    (0x0FFFFFFFFFFFFFFF#64 : Word).toNat < 2 ^ 60 ∧ 0xF000000000000000 ≤ (0xF000000000000000#64 : Word).toNat ∧
    (mixMultiply 3#64 0x55555555#64).toNat < 2 ^ 32 ∧ (mixMultiply 1#64 0xFFFFFFFF#64).toNat < 2 ^ 32 := by decide

/-- 41_weyl_accumulator.md section 3: width 4, increment 5, at the first and the last `j`. -/
theorem witness_OddIncrementHasFullPeriodAtEveryWidth :
    isOdd 5#4 = true ∧ (0 < 1 ∧ 1 < 2 ^ 4) ∧ (0 < 15 ∧ 15 < 2 ^ 4) ∧ isOdd 1#1 = true := by decide

theorem witness_EachRequestConsumesOneWholeWord :
    [0b000#3, 0b111#3][0]? = some (0b000#3 : Cmd) ∧ [0b000#3, 0b111#3][1]? = some (0b111#3 : Cmd) := by decide

theorem witness_NoPeriodBelowTheAccumulators :
    (0 < 1 ∧ 1 < 0 + 2 ^ 64) ∧ (0 < 2 ^ 64 - 1 ∧ 2 ^ 64 - 1 < 0 + 2 ^ 64) ∧
    ¬ 2 ^ 64 ∣ 1 ∧ ¬ 2 ^ 64 ∣ 2 ^ 64 + 1 := by decide

/-- Two machines that differ in what was answered before. -/
theorem witness_RegistersAndInputsDecideEverything :
    (⟨⟨1#64, 1#64⟩, [Cycle.request 4#3], []⟩ : State).regs = (⟨⟨1#64, 1#64⟩, [Cycle.request 4#3], [9#64]⟩ : State).regs ∧
    (⟨⟨1#64, 1#64⟩, [Cycle.request 4#3], []⟩ : State).inputs =
      (⟨⟨1#64, 1#64⟩, [Cycle.request 4#3], [9#64]⟩ : State).inputs := by decide

/-- A fresh instance to which `GEN64` is presented: the invariant holds and the step gives a next state. -/
theorem witness_StepKeepsTheStateExplainedByARun :
    ∃ t, explainedByARun (start [Cycle.request 4#3]) ∧ step (start [Cycle.request 4#3]) = .next t :=
  ⟨_, ⟨[], [], rfl, rfl⟩, Laws.edge_request rfl rfl _⟩

theorem witness_ReversalMovesEveryBit :
    0 < 32 ∧ 31 < 32 ∧ ∀ i, i < 32 → (0x80000001#32 : Half).getLsbD i = (0x80000001#32 : Half).getLsbD (31 - i) := by
  decide

/-- The first and the last stage, the first and the last bit, and an order that is not the source's. -/
theorem witness_StagedNetworkReversesInAnyOrder :
    reversalStages[0]? = some swapBits ∧ reversalStages[4]? = some swapHalves ∧ (0 < 32 ∧ 31 < 32) ∧
    reversalStages.reverse.Perm reversalStages :=
  ⟨rfl, rfl, by decide, List.reverse_perm _⟩

theorem witness_ReversedProjectionsBitByBit : 0 < 32 ∧ 31 < 32 := by decide

theorem witness_ReversedHalvesJoinToTheReversedWord : 0 < 64 ∧ 31 < 64 ∧ 32 < 64 ∧ 63 < 64 := by decide

theorem witness_EveryCommandWordIsDefined :
    (0b100#3 : Cmd).getLsbD 2 = true ∧ (0b111#3 : Cmd).getLsbD 2 = true := by decide

theorem witness_EncodingRowsPartitionTheCommandWords :
    (encodingRow .next32Hir).selects 0b011#3 = true ∧ (encodingRow .gen64).selects 0b111#3 = true := by decide

theorem witness_OnlyOddConstantsMakeAConfiguration :
    (isOdd 1#64 = true ∧ isOdd 0xFFFFFFFFFFFFFFFF#64 = true) ∧ isOdd 0#64 = false ∧
    (isOdd 1#64 = true ∧ isOdd 2#64 = false) := by decide

/-- Two fresh instances, one request to each. -/
theorem witness_InstancesShareNothing :
    [Instance.afterReset Params.p1, Instance.afterReset Params.p1][0]? = some (Instance.afterReset Params.p1) ∧
    [Instance.afterReset Params.p1, Instance.afterReset Params.p1][1]? = some (Instance.afterReset Params.p1) ∧
    (commandsTo 0 [⟨0, 0b100#3⟩, ⟨1, 0b000#3⟩]).length = (commandsTo 1 [⟨0, 0b100#3⟩, ⟨1, 0b000#3⟩]).length := by decide

end Sys2Proof.Tests
end

-- ==== Scope: what decides a run, and what a configuration is ====
section
/-! PROOF. Scope of the block: registers and pins alone decide what comes (00_scope.md rule R10, 10_state.md rule R32), and
the pairs of constants that are configurations (00_scope.md rules R6, R7).

Determinism is proved by one commutation: with `earlier` put in front of the record of responses, every step does what it
does without. Two states that agree in registers and pins are one state with nothing answered yet and two such records. -/

namespace Sys2Proof.Proofs

open Sys2Proof.Machine Sys2Proof.Laws

/-! ### The record of responses influences nothing -/

/-- The state whose requester had been given `earlier` before all that `s` records. -/
def withEarlier (earlier : List Word) (s : State) : State := { s with responses := earlier ++ s.responses }

@[simp] theorem withEarlier_regs (earlier : List Word) (s : State) : (withEarlier earlier s).regs = s.regs := rfl
@[simp] theorem withEarlier_inputs (earlier : List Word) (s : State) :
    (withEarlier earlier s).inputs = s.inputs := rfl
@[simp] theorem withEarlier_responses (earlier : List Word) (s : State) :
    (withEarlier earlier s).responses = earlier ++ s.responses := rfl

/-- Registers, pins and record are all a state is: what agrees with `s` in the first two is `s` with another record. -/
theorem withEarlier_of_agree {s u : State} (hregs : s.regs = u.regs) (hinputs : s.inputs = u.inputs) :
    withEarlier u.responses { s with responses := [] } = u :=
  state_eq hregs hinputs (by simp)

theorem acceptRequest_withEarlier (p : Params) (project : Word → Word) (earlier : List Word) (s : State) :
    acceptRequest p project (withEarlier earlier s) = withEarlier earlier (acceptRequest p project s) :=
  state_eq (by simp) (by simp) (by simp)

/-- An edge goes to one next state, whatever was answered before it. -/
theorem edge_withEarlier (c : Cycle) (s : State) :
    ∃ t, ∀ earlier, edge c (withEarlier earlier s) = .next (withEarlier earlier t) := by
  cases hr : c.rst with
  | true => exact ⟨resetEdge s, fun earlier => edge_reset hr _⟩
  | false =>
    cases hv : c.reqValid with
    | true =>
      refine ⟨acceptRequest Config.params (response c.reqCmd) s, fun earlier => ?_⟩
      rw [edge_request hr hv, acceptRequest_withEarlier]
    | false => exact ⟨s, fun earlier => edge_idle hr hv _⟩

theorem step_withEarlier (s : State) :
    ∃ t, ∀ earlier, step (withEarlier earlier s) = .next (withEarlier earlier t) := by
  cases hi : s.inputs with
  | nil => exact ⟨s, fun earlier => step_nil (by simpa using hi)⟩
  | cons c rest =>
    obtain ⟨t, ht⟩ := edge_withEarlier c { s with inputs := rest }
    refine ⟨t, fun earlier => ?_⟩
    have hpins : (withEarlier earlier s).inputs = c :: rest := by simpa using hi
    rw [step_cons hpins]
    exact ht earlier

theorem core_run_withEarlier (n : Nat) (s : State) :
    ∃ t, ∀ earlier, Host.Core.run Sys2Proof.core n (withEarlier earlier s) = .next (withEarlier earlier t) := by
  induction n generalizing s with
  | zero => exact ⟨s, fun earlier => core_run_zero _⟩
  | succ n ih =>
    obtain ⟨mid, hstep⟩ := step_withEarlier s
    obtain ⟨t, hrun⟩ := ih mid
    exact ⟨t, fun earlier => (core_run_succ (hstep earlier)).trans (hrun earlier)⟩

/-- Settles O32: both states are the same state with nothing answered, behind their own records, so `core_run_withEarlier`
takes both to one end behind those records. -/
theorem registersAndInputsDecideEverything : Obligations.RegistersAndInputsDecideEverything := by
  intro n s u hregs hinputs
  obtain ⟨t, hrun⟩ := core_run_withEarlier n { s with responses := [] }
  have hruns := hrun s.responses
  have hrunu := hrun u.responses
  rw [withEarlier_of_agree rfl rfl] at hruns
  rw [withEarlier_of_agree hregs hinputs] at hrunu
  exact ⟨_, _, t.responses, hruns, hrunu, by simp⟩

/-! ### Odd constants -/

theorem check_of_odd {m inc : Word} (hm : isOdd m = true) (hi : isOdd inc = true) :
    Params.check m inc = .ok ⟨m, inc, hm, hi⟩ := by
  simp [Params.check, hm, hi]

theorem check_of_even_multiplier {m : Word} (hm : isOdd m = false) (inc : Word) :
    Params.check m inc = .error .evenMultiplier := by
  simp [Params.check, hm]

theorem check_of_even_increment {m inc : Word} (hm : isOdd m = true) (hi : isOdd inc = false) :
    Params.check m inc = .error .evenIncrement := by
  simp [Params.check, hm, hi]

/-- Below its 63 upper bits an odd word has a 1, and that is what `oddWord` puts there. -/
theorem oddWord_upper_bits {x : Word} (hx : isOdd x = true) : oddWord (x.extractLsb' 1 63) = x := by
  refine BitVec.eq_of_getLsbD_eq fun i hi => ?_
  rw [oddWord, BitVec.getLsbD_append]
  cases i with
  | zero => exact hx.symm
  | succ i =>
    have hupper : i < 63 := by omega
    simp [hupper, Nat.add_comm 1 i]

/-- Settles O47, by the three answers of `Params.check`, the proofs a configuration carries, and `oddWord_upper_bits`. -/
theorem onlyOddConstantsMakeAConfiguration : Obligations.OnlyOddConstantsMakeAConfiguration :=
  ⟨fun _ _ hm hi => ⟨_, check_of_odd hm hi, rfl, rfl⟩,
    fun _ inc hm => check_of_even_multiplier hm inc,
    fun _ _ hm hi => check_of_even_increment hm hi,
    fun p => ⟨p.mOdd, p.incOdd⟩,
    fun x hx => ⟨x.extractLsb' 1 63, oddWord_upper_bits hx⟩⟩

end Sys2Proof.Proofs
end

-- ==== The state: its reset values, how it is held, and the run from reset that explains it ====
section
/-! PROOF. The family of 10_state.md: reset (rule R24), edges that hold both registers (rule R23), the accumulator as a
function of two words (rule R33), and the invariant that a run from reset explains the state
(70_reset_and_hazards.md rule R186).

The invariant speaks of the registers and the responses only. A step that leaves both keeps the run, an accepted request
makes the run one command longer, and a reset edge starts the empty run. -/

namespace Sys2Proof.Proofs

open Sys2Proof.Machine Sys2Proof.Safety Sys2Proof.Laws

/-! ### A run from reset explains the state -/

/-- A run with one more command: the registers advance once more, and the last response is projected from the new word. -/
theorem transactAll_snoc (p : Params) (cs : List Cmd) (c : Cmd) (r : Regs) :
    transactAll p (cs ++ [c]) r =
      (advance p (transactAll p cs r).1,
        (transactAll p cs r).2 ++ [response c (advance p (transactAll p cs r).1).state]) :=
  transactAll_append p cs [c] r

/-- The pins to come are no part of the invariant. -/
theorem explainedByARun_setInputs {s : State} (h : explainedByARun s) (cycles : List Cycle) :
    explainedByARun { s with inputs := cycles } := h

/-- The empty run explains both registers at 0, after whatever was answered before. -/
theorem explainedByARun_of_regs_reset {s : State} (h : s.regs = Regs.reset) : explainedByARun s :=
  ⟨[], s.responses, by simp [h], by simp⟩

theorem explainedByARun_acceptRequest {s : State} (h : explainedByARun s) (c : Cmd) :
    explainedByARun (acceptRequest Config.params (response c) s) := by
  obtain ⟨cmds, earlier, hregs, hresponses⟩ := h
  refine ⟨cmds ++ [c], earlier, ?_, ?_⟩
  · rw [transactAll_snoc, acceptRequest_regs, hregs]
  · rw [transactAll_snoc, acceptRequest_responses, hregs, hresponses, List.append_assoc]

/-- Each of the three things an edge can do has its run: the empty one, one command more, or the same. -/
theorem edge_keeps_explainedByARun {s t : State} (c : Cycle) (h : explainedByARun s) (hedge : edge c s = .next t) :
    explainedByARun t := by
  rcases edge_cases c s with ⟨_, he⟩ | ⟨_, _, he⟩ | ⟨_, _, he⟩ <;> cases he.symm.trans hedge
  case inl => exact explainedByARun_of_regs_reset (resetEdge_regs s)
  case inr.inl => exact explainedByARun_acceptRequest h c.reqCmd
  case inr.inr => exact h

/-- Settles O33: a step is an edge with the first pins listed, or holds the state when none are. -/
theorem stepKeepsTheStateExplainedByARun : Obligations.StepKeepsTheStateExplainedByARun := by
  intro s t h hstep
  cases hi : s.inputs with
  | nil =>
    cases (step_nil hi).symm.trans hstep
    exact h
  | cons c rest =>
    rw [step_cons hi] at hstep
    exact edge_keeps_explainedByARun c (explainedByARun_setInputs h rest) hstep

/-- Settles O34, by the empty run. -/
theorem freshStateIsExplainedByARun : Obligations.FreshStateIsExplainedByARun :=
  ⟨explainedByARun_of_regs_reset rfl, fun _ => explainedByARun_of_regs_reset rfl⟩

/-! ### Edges that hold the state -/

theorem core_run_of_step_self {s : State} (h : step s = .next s) (n : Nat) :
    Host.Core.run Sys2Proof.core n s = .next s := by
  induction n with
  | zero => exact core_run_zero s
  | succ n ih => exact (core_run_succ h).trans ih

theorem core_run_idle {idle : List Cycle} (rest : List Cycle) (s : State)
    (h : ∀ c ∈ idle, c.rst = false ∧ c.reqValid = false) :
    Host.Core.run Sys2Proof.core idle.length { s with inputs := idle ++ rest } = .next { s with inputs := rest } := by
  induction idle with
  | nil => exact core_run_zero _
  | cons c cs ih =>
    obtain ⟨⟨hrst, hvalid⟩, hcs⟩ := List.forall_mem_cons.mp h
    have hstep : step { s with inputs := c :: (cs ++ rest) } = .next { s with inputs := cs ++ rest } :=
      (step_cons rfl).trans (edge_idle hrst hvalid _)
    exact (core_run_succ hstep).trans (ih hcs)

/-- Settles O5: listed idle edges by induction on the list, and no listed edges because the step goes to the same state. -/
theorem idleEdgesHoldBothRegisters : Obligations.IdleEdgesHoldBothRegisters :=
  ⟨fun _ rest s h => core_run_idle rest s h, fun n _ => core_run_of_step_self (step_nil rfl) n⟩

/-! ### The values of the registers -/

/-- Settles O1, by the reset values of the two registers. -/
theorem resetLeavesBothRegistersZero : Obligations.ResetLeavesBothRegistersZero :=
  ⟨regs_reset_state, regs_reset_weyl⟩

/-- The sum that makes the new word, solved for the new accumulator value. -/
theorem advance_weyl_eq_sub (p : Params) (r : Regs) :
    (advance p r).weyl = (advance p r).state - diffuse p.m r.state := by
  rw [advance_state, advance_weyl, add_sub_cancel_left]

/-- Settles O16: every command advances the registers once, and `advance_weyl_eq_sub` holds of an advance. -/
theorem twoWordsDetermineTheAccumulator : Obligations.TwoWordsDetermineTheAccumulator :=
  fun i s => ⟨_, exec_eq_acceptRequest i s, advance_weyl_eq_sub Config.params s.regs⟩

end Sys2Proof.Proofs
end

-- ==== No memory: no command reads without advancing ====
section
/-! PROOF. The family of 20_memory.md: a read that leaves the registers as they were does not exist (rule R44).

Every command adds the increment to the accumulator, and the increment is odd (00_scope.md rule R7), so it is not 0. -/

namespace Sys2Proof.Proofs

open Sys2Proof.Machine Sys2Proof.Laws

theorem ne_zero_of_isOdd {n : Nat} {x : BitVec n} (h : isOdd x = true) : x ≠ 0#n := by
  rintro rfl
  simp [isOdd] at h

/-- An odd increment moves the accumulator at every width, wrapping or not. -/
theorem weylNext_ne_self {n : Nat} {inc : BitVec n} (h : isOdd inc = true) (w : BitVec n) : weylNext inc w ≠ w :=
  fun hsame => ne_zero_of_isOdd h (add_eq_left.mp hsame)

theorem advance_weyl_ne_self (p : Params) (r : Regs) : (advance p r).weyl ≠ r.weyl := by
  rw [advance_weyl]
  exact weylNext_ne_self p.incOdd r.weyl

/-- Settles O15: every command advances the registers once, and an advance changes the accumulator. -/
theorem everyCommandChangesTheAccumulator : Obligations.EveryCommandChangesTheAccumulator :=
  fun i s => ⟨_, exec_eq_acceptRequest i s, advance_weyl_ne_self Config.params s.regs⟩

end Sys2Proof.Proofs
end

-- ==== The encoding: command words, the clock edge, the response, and the cut of edges into runs ====
section
/-! PROOF. The family of 30_encoding.md: the command words and their byte form (rules R61, R62, R64), the clock edge
(rule R68), the response word (rules R66, R69), the lines of listings (rule R71), and the refinement of the
transaction-level model by sequences of edges (rules R60, R68).

The refinement is one commuting square: the end that the runs of `c :: cs` give a state is the end that the runs of `cs`
give the state after the edge `c`. -/

namespace Sys2Proof.Proofs

open Sys2Proof.Machine Sys2Proof.Laws

/-! ### Command words -/

theorem decode_of_w64 {c : Cmd} (h : fieldW64 c = true) : decode c = .gen64 := by
  simp [decode, h]

/-- A command word is its three fields. -/
theorem packFields_fields (c : Cmd) : packFields (fieldW64 c) (fieldRev c) (fieldHalf c) = c := by
  revert c
  decide

/-- Without `W64` the command keeps both other fields, so its canonical word is the word it was decoded from. -/
theorem encode_decode_of_not_w64 {c : Cmd} (h : fieldW64 c = false) : encode (decode c) = c :=
  calc encode (decode c) = packFields false (fieldRev c) (fieldHalf c) := by
        cases hr : fieldRev c <;> cases hh : fieldHalf c <;> simp [decode, encode, h, hr, hh]
    _ = packFields (fieldW64 c) (fieldRev c) (fieldHalf c) := by rw [h]
    _ = c := packFields_fields c

theorem encode_decode (c : Cmd) : encode (decode c) = if c.getLsbD 2 = true then 0b100#3 else c := by
  cases h : c.getLsbD 2 with
  | true => exact congrArg encode (decode_of_w64 h)
  | false => exact encode_decode_of_not_w64 h

theorem decode_encode (i : Instr) : decode (encode i) = i := by
  cases i <;> rfl

/-! ### The byte form of a command word -/

theorem tableBytes_cmd (c : Cmd) : tableBytes 8 c.toNat = [c.setWidth 8] := by
  simp [tableBytes]

theorem commandWordOfByte_setWidth (c : Cmd) : commandWordOfByte (c.setWidth 8) = .ok c := by
  have hlow : (c.setWidth 8).extractLsb' 0 3 = c := by
    revert c
    decide
  have hhigh : (c.setWidth 8).extractLsb' 3 5 = 0#5 := by
    revert c
    decide
  rw [commandWordOfByte, if_pos hhigh, hlow]

theorem decodeTableWord_cmd (c : Cmd) : decodeTableWord 8 c.toNat = some (decode c) := by
  simp [decodeTableWord, decodeBytes, tableBytes_cmd, commandWordOfByte_setWidth]

/-- Settles O43: the decoder on the eight words, and `decode_of_w64` for what is printed. -/
theorem everyCommandWordIsDefined : Obligations.EveryCommandWordIsDefined :=
  ⟨decode_000, decode_001, decode_010, decode_011, decode_100, decode_101, decode_110, decode_111, rfl,
    fun _ h => congrArg Instr.letters (decode_of_w64 h)⟩

/-- Settles O44: the byte form decodes as the word it carries, so `decode_encode` serves both forms. -/
theorem decodeAndEncodeAgree : Obligations.DecodeAndEncodeAgree :=
  ⟨fun i => ⟨decode_encode i, by rw [decodeTableWord_cmd, decode_encode]⟩, encode_decode⟩

/-! ### The clock edge -/

/-- A request without reset is nothing but its decoded command. -/
theorem edge_request_eq_exec {c : Cycle} (h : c.rst = false) (hv : c.reqValid = true) (s : State) :
    edge c s = exec (decode c.reqCmd) s :=
  (edge_request h hv s).trans (exec_decode c.reqCmd s).symm

theorem step_request (s : State) (cmd : Cmd) (rest : List Cycle) :
    step { s with inputs := Cycle.request cmd :: rest } = exec (decode cmd) { s with inputs := rest } :=
  (step_cons rfl).trans (edge_request_eq_exec rfl rfl _)

/-- Settles O2, by `step_request`: its pins are those of a request. -/
theorem stepRunsTheDecodedCommand : Obligations.StepRunsTheDecodedCommand := step_request

/-- Settles O3, by the three things an edge can do. -/
theorem clockEdgeFollowsThePins : Obligations.ClockEdgeFollowsThePins := by
  intro s c rest
  rw [step_cons rfl]
  rcases edge_cases c { s with inputs := rest } with ⟨hr, he⟩ | ⟨hr, hv, he⟩ | ⟨hr, hv, he⟩
  case inl => exact ⟨_, he, resetEdge_inputs _, by simp [hr, Regs.reset], by simp [hr], by simp⟩
  case inr.inl => exact ⟨_, he, acceptRequest_inputs _ _ _, by simp [hr, hv], by simp [hr, hv], by simp⟩
  case inr.inr => exact ⟨_, he, rfl, by simp [hr, hv], by simp [hr, hv], List.prefix_rfl⟩

/-! ### The response word -/

/-- Zero extension leaves nothing in the upper half. -/
theorem high32_zext64 (h : Half) : high32 (zext64 h) = 0#32 := by
  refine BitVec.eq_of_getLsbD_eq fun i _ => ?_
  simp [getLsbD_high32, getLsbD_zext64]

theorem response_of_not_w64 {c : Cmd} (h : fieldW64 c = false) (word : Word) :
    response c word = zext64 (extract (fieldSel c) word) := by
  simp [response, h]

/-- Settles O12: a decoded command answers with `response` of the new word, which is the one expression of rule R66 and
what the port shows; without `W64` it is a zero extension. -/
theorem responseIsOneExpressionOfTheCommandWord : Obligations.ResponseIsOneExpressionOfTheCommandWord := by
  intro cmd s
  refine ⟨_, _, exec_decode cmd s, acceptRequest_responses _ _ s, rfl, fun h => ?_, rfl⟩
  rw [response_of_not_w64 h]
  exact high32_zext64 _

/-! ### Lines of listings -/

theorem expandListing_replicate_command (n : Nat) (i : Instr) :
    expandListing (List.replicate n (.command i)) = List.replicate n (Cycle.request (encode i)) := by
  simp [expandListing, AsmLine.expand]

theorem step_expand_command (i : Instr) (s : State) (rest : List Cycle) :
    step { s with inputs := (AsmLine.command i).expand ++ rest } = exec i { s with inputs := rest } :=
  (step_request s (encode i) rest).trans (by rw [decode_encode])

theorem step_expand_reset (s : State) (rest : List Cycle) :
    step { s with inputs := AsmLine.reset.expand ++ rest } = .next (resetEdge { s with inputs := rest }) :=
  (step_cons rfl).trans (edge_reset rfl _)

/-- Settles O46: the pseudo-forms and `.times` by what they expand to, `.reset` and a command by the step they make. -/
theorem listingLinesExpandAsTheSpecSays : Obligations.ListingLinesExpandAsTheSpecSays :=
  ⟨⟨rfl, rfl, rfl, rfl⟩, fun n i => (expandListing_replicate_command n i).symm, fun _ => rfl, step_expand_reset,
    step_expand_command⟩

/-! ### Edges refine the runs they are cut into -/

section Runs

variable (p : Params) (r : Regs) (c : Cmd) (first : List Cmd) (later : List (List Cmd))

/-- The first command of the current run advances the registers in which the rest of that run begins. -/
theorem regsAfterRuns_cons_command :
    regsAfterRuns p r (c :: first) later = regsAfterRuns p (advance p r) first later := by
  cases later <;> rfl

theorem responsesOfRuns_cons_command :
    responsesOfRuns p r (c :: first) later = rspData p r c :: responsesOfRuns p (advance p r) first later := by
  cases later <;> rfl

/-- The end of an empty run hands over to the next one, at reset. -/
theorem regsAfterRuns_nil_run : regsAfterRuns p r [] (first :: later) = regsAfterRuns p Regs.reset first later := rfl

theorem responsesOfRuns_nil_run :
    responsesOfRuns p r [] (first :: later) = responsesOfRuns p Regs.reset first later := rfl

end Runs

/-- The state at the end of some runs that begin in `s`, with `rest` still to be presented. -/
def endOfRuns (rest : List Cycle) (s : State) (runs : List Cmd × List (List Cmd)) : State where
  regs := regsAfterRuns Config.params s.regs runs.1 runs.2
  inputs := rest
  responses := s.responses ++ responsesOfRuns Config.params s.regs runs.1 runs.2

theorem endOfRuns_nil {s : State} {rest : List Cycle} (h : s.inputs = rest) :
    endOfRuns rest s (runsOf []) = s :=
  state_eq rfl h.symm (List.append_nil _)

/-- The commuting square of one edge: it starts the next run, takes the first command of this one, or is in none. -/
theorem endOfRuns_edge {c : Cycle} {s t : State} (h : edge c s = .next t) (rest cs : List Cycle) :
    endOfRuns rest s (runsOf (c :: cs)) = endOfRuns rest t (runsOf cs) := by
  rcases edge_cases c s with ⟨hr, he⟩ | ⟨hr, hv, he⟩ | ⟨hr, hv, he⟩ <;> cases he.symm.trans h
  case inl => simp [endOfRuns, runsOf_reset hr, regsAfterRuns_nil_run, responsesOfRuns_nil_run]
  case inr.inl =>
    simp [endOfRuns, runsOf_request hr hv, regsAfterRuns_cons_command, responsesOfRuns_cons_command, rspData]
  case inr.inr => rw [runsOf_idle hr hv]

/-- Every edge gives a next state and leaves the pins of the edges to come. -/
theorem edge_next_inputs (c : Cycle) (s : State) : ∃ t, edge c s = .next t ∧ t.inputs = s.inputs := by
  rcases edge_cases c s with ⟨_, he⟩ | ⟨_, _, he⟩ | ⟨_, _, he⟩ <;> exact ⟨_, he, rfl⟩

theorem core_run_edges {cycles rest : List Cycle} {s : State} (h : s.inputs = cycles ++ rest) :
    Host.Core.run Sys2Proof.core cycles.length s = .next (endOfRuns rest s (runsOf cycles)) := by
  induction cycles generalizing s with
  | nil => exact congrArg Host.Outcome.next (endOfRuns_nil h).symm
  | cons c cs ih =>
    obtain ⟨t, hedge, hinputs⟩ := edge_next_inputs c { s with inputs := cs ++ rest }
    have hend : endOfRuns rest s (runsOf (c :: cs)) = endOfRuns rest t (runsOf cs) := endOfRuns_edge hedge rest cs
    rw [hend, ← ih hinputs]
    exact core_run_succ ((step_cons h).trans hedge)

/-- Settles O35: `core_run_edges` names the state in which the edges end. -/
theorem clockedTraceRefinesTransactionRuns : Obligations.ClockedTraceRefinesTransactionRuns :=
  fun _ _ _ => ⟨_, core_run_edges rfl, rfl, rfl, rfl⟩

end Sys2Proof.Proofs
end

-- ==== The mixer: its arithmetic, its inverse, its corner cases ====
section
/-! PROOF. The family of 40_diffusion_mixer.md: the four steps (rules R80 to R84), the inverse of an odd multiplier
(rule R85), the inverse of the mixer (rule R86), zero (rule R87) and the corner cases of the shift (rule R88).

Everything about step 3 follows from one reading of it: `a >> b` is the word itself shifted by `32` and then by `b`, so it
ends below bit `32 - b`. The inverse of a multiplier is found through its error `1 - m * x`, which a Newton step squares;
and `undiffuse` is `diffuse` at that inverse, so one lemma proves both of its laws. -/

namespace Sys2Proof.Proofs

open Sys2Proof.Machine Sys2Proof.Laws

/-! ### The fields of the product -/

theorem mixValue_toNat (y : Word) : (mixValue y).toNat = y.toNat / 2 ^ 32 := by
  have hlt : y.toNat < 2 ^ 64 := y.isLt
  rw [mixValue, BitVec.extractLsb'_toNat, Nat.shiftRight_eq_div_pow]
  omega

theorem mixDistance_toNat (y : Word) : (mixDistance y).toNat = y.toNat / 2 ^ 60 := by
  have hlt : y.toNat < 2 ^ 64 := y.isLt
  rw [mixDistance, BitVec.extractLsb'_toNat, Nat.shiftRight_eq_div_pow]
  omega

theorem mixDistance_eq_of_toNat {y : Word} {b : Nat} (hb : b < 16) (h : y.toNat / 2 ^ 60 = b) :
    mixDistance y = BitVec.ofNat 4 b := by
  refine BitVec.eq_of_toNat_eq ?_
  rw [mixDistance_toNat, h, BitVec.toNat_ofNat, Nat.mod_eq_of_lt hb]

/-! ### Step 3, the exclusive or -/

/-- The width in which `a` is held while it is shifted does not matter (rule R83). -/
theorem mixXor_eq_shift_in_word (y : Word) : mixXor y = y ^^^ ((y >>> 32) >>> (mixDistance y).toNat) := by
  have hfield : (mixValue y >>> (mixDistance y).toNat).setWidth 64 = (y >>> 32) >>> (mixDistance y).toNat := by
    refine BitVec.eq_of_toNat_eq ?_
    have hle : (mixValue y).toNat >>> (mixDistance y).toNat ≤ (mixValue y).toNat := Nat.shiftRight_le _ _
    have hlt : (mixValue y).toNat < 2 ^ 32 := (mixValue y).isLt
    rw [BitVec.toNat_setWidth, BitVec.toNat_ushiftRight, Nat.mod_eq_of_lt (by omega), mixValue_toNat,
      BitVec.toNat_ushiftRight, BitVec.toNat_ushiftRight, Nat.shiftRight_eq_div_pow y.toNat]
  rw [mixXor, hfield]

theorem mixXor_toNat (y : Word) :
    (mixXor y).toNat = y.toNat ^^^ y.toNat / 2 ^ 32 / 2 ^ (y.toNat / 2 ^ 60) := by
  simp only [mixXor_eq_shift_in_word, BitVec.toNat_xor, BitVec.toNat_ushiftRight, Nat.shiftRight_eq_div_pow,
    mixDistance_toNat]

/-- Bit `b + i` of `a` is a bit of the word above its top one, so there is nothing to change bit `i` with. -/
theorem getLsbD_mixXor_of_above {y : Word} {i : Nat} (h : 31 - (mixDistance y).toNat < i) :
    (mixXor y).getLsbD i = y.getLsbD i := by
  have habove : 32 ≤ (mixDistance y).toNat + i := by omega
  by_cases hi : i < 64
  · rw [getLsbD_mixXor y i hi, BitVec.getLsbD_of_ge _ _ habove, Bool.xor_false]
  · rw [BitVec.getLsbD_of_ge _ _ (by omega), BitVec.getLsbD_of_ge _ _ (by omega)]

/-- Step 3 leaves its own operand `a`, the high half, as it was. -/
theorem mixValue_mixXor (y : Word) : mixValue (mixXor y) = mixValue y := by
  refine BitVec.eq_of_getLsbD_eq fun i _ => ?_
  rw [getLsbD_mixValue, getLsbD_mixValue, getLsbD_mixXor_of_above (by omega)]

/-- `b` is the top of `a`. -/
theorem mixDistance_toNat_eq_mixValue (y : Word) : (mixDistance y).toNat = (mixValue y).toNat / 2 ^ 28 := by
  rw [mixDistance_toNat, mixValue_toNat]
  omega

theorem mixDistance_mixXor (y : Word) : mixDistance (mixXor y) = mixDistance y := by
  refine BitVec.eq_of_toNat_eq ?_
  rw [mixDistance_toNat_eq_mixValue, mixValue_mixXor, ← mixDistance_toNat_eq_mixValue]

/-- The second time, the same value is xored in again (rule R86). -/
theorem mixXor_mixXor (y : Word) : mixXor (mixXor y) = y := by
  have hagain : mixXor (mixXor y) = mixXor y ^^^ (mixValue y >>> (mixDistance y).toNat).setWidth 64 := by
    rw [mixXor, mixValue_mixXor, mixDistance_mixXor]
  rw [hagain, mixXor, BitVec.xor_assoc, BitVec.xor_self, BitVec.xor_zero]

theorem mixXor_of_mixValue_zero {y : Word} (h : mixValue y = 0#32) : mixXor y = y := by
  simp [mixXor, h]

/-- Settles O19, by the reading of `a >> b` as a shift of the word and the bits it leaves alone. -/
theorem mixerXorChangesOnlyLowBits : Obligations.MixerXorChangesOnlyLowBits := by
  intro y
  have htop : (y >>> 60).toNat = (mixDistance y).toNat := by
    rw [mixDistance_toNat, BitVec.toNat_ushiftRight, Nat.shiftRight_eq_div_pow]
  refine ⟨rfl, ?_, Nat.le_of_lt_succ (mixDistance_lt y), mixValue_mixXor y, fun i => getLsbD_mixXor_of_above⟩
  rw [htop]
  exact mixXor_eq_shift_in_word y

/-! ### The products -/

theorem mixMultiply_toNat (m x : Word) : (mixMultiply m x).toNat = x.toNat * m.toNat % 2 ^ 64 :=
  BitVec.toNat_mul x m

/-- The low 64 bits of the product of the signed readings (rule R85). -/
theorem mixMultiply_eq_ofInt (m x : Word) : mixMultiply m x = BitVec.ofInt 64 (x.toInt * m.toInt) := by
  rw [BitVec.ofInt_mul, BitVec.ofInt_toInt, BitVec.ofInt_toInt, mixMultiply]

theorem mixMultiply_undoes {a b : Word} (h : a * b = 1#64) (x : Word) : mixMultiply b (mixMultiply a x) = x := by
  rw [mixMultiply, mixMultiply, mul_assoc, h]
  exact mul_one x

/-- Settles O18: the outer steps are `mixMultiply_toNat`, the inner one `mixXor_toNat`. -/
theorem mixerIsTheFourStepArithmetic : Obligations.MixerIsTheFourStepArithmetic := by
  intro m x
  rw [diffuse, mixMultiply_toNat, mixXor_toNat, mixMultiply_toNat]

/-! ### The inverse of an odd multiplier -/

/-- A Newton step squares the error. -/
theorem one_sub_mul_inverseStep (m x : Word) : 1 - m * inverseStep m x = (1 - m * x) ^ 2 := by
  have htwo : (2#64 : Word) = 2 := rfl
  rw [inverseStep, htwo]
  ring

theorem one_sub_mul_inverseOfOdd (m : Word) : 1 - m * inverseOfOdd m = (1 - m * m) ^ 32 := by
  simp only [inverseOfOdd, one_sub_mul_inverseStep, ← pow_mul]

theorem eq_two_mul_add_one_of_isOdd {m : Word} (h : isOdd m = true) : ∃ k : Word, m = 2 * k + 1 := by
  have hmod : m.toNat % 2 = 1 := by simpa [isOdd, BitVec.getLsbD] using h
  exact ⟨BitVec.ofNat 64 (m.toNat / 2), by bv_omega⟩

/-- The first guess `m` is right in its two lowest bits (in three, in fact), and two doubled five times make 64. -/
theorem mul_inverseOfOdd {m : Word} (h : isOdd m = true) : m * inverseOfOdd m = 1#64 := by
  obtain ⟨k, hk⟩ := eq_two_mul_add_one_of_isOdd h
  have herror : 1 - m * m = 4 * -(k * k + k) := by
    rw [hk]
    ring
  have hzero : (1 - m * m) ^ 32 = 0 := by
    have hmodulus : (4 : Word) ^ 32 = 0 := by decide
    rw [herror, mul_pow, hmodulus, zero_mul]
  exact (sub_eq_zero.mp ((one_sub_mul_inverseOfOdd m).trans hzero)).symm

/-- Settles O20: the inverse by Newton's error, unique as in every commutative ring, and both readings of a product. -/
theorem oddMultiplierHasOneInverse : Obligations.OddMultiplierHasOneInverse := by
  refine ⟨fun m hm => ?_, fun m x => ⟨mixMultiply_toNat m x, mixMultiply_eq_ofInt m x⟩,
    by decide, by decide, by decide⟩
  have hright : m * inverseOfOdd m = 1#64 := mul_inverseOfOdd hm
  have hleft : inverseOfOdd m * m = 1#64 := (mul_comm _ _).trans hright
  exact ⟨hright, fun n hn => (left_inv_eq_right_inv hleft hn).symm,
    fun x => ⟨mixMultiply_undoes hright x, mixMultiply_undoes hleft x⟩⟩

/-! ### The inverse of the mixer -/

/-- Mixing at the inverse multiplier takes the three steps back: each of them is undone by its own kind. -/
theorem diffuse_undoes {a b : Word} (h : a * b = 1#64) (x : Word) : diffuse b (diffuse a x) = x := by
  rw [diffuse, diffuse, mixMultiply_undoes h, mixXor_mixXor, mixMultiply_undoes h]

theorem undiffuse_eq_diffuse (m r : Word) : undiffuse m r = diffuse (inverseOfOdd m) r := rfl

theorem undiffuse_diffuse {m : Word} (h : isOdd m = true) (x : Word) : undiffuse m (diffuse m x) = x := by
  rw [undiffuse_eq_diffuse, diffuse_undoes (mul_inverseOfOdd h)]

theorem diffuse_undiffuse {m : Word} (h : isOdd m = true) (r : Word) : diffuse m (undiffuse m r) = r := by
  rw [undiffuse_eq_diffuse, diffuse_undoes ((mul_comm _ _).trans (mul_inverseOfOdd h))]

/-- Settles O21, by the involution of step 3 and the two laws of `undiffuse`. -/
theorem mixerIsABijectionUndoneByUndiffuse : Obligations.MixerIsABijectionUndoneByUndiffuse :=
  ⟨fun y => ⟨mixValue_mixXor y, mixDistance_mixXor y, mixXor_mixXor y⟩,
    fun m hm =>
      ⟨Function.bijective_iff_has_inverse.mpr ⟨undiffuse m, undiffuse_diffuse hm, diffuse_undiffuse hm⟩,
        undiffuse_diffuse hm, diffuse_undiffuse hm⟩⟩

/-! ### Corner cases -/

/-- Clause (a) of rule R88. -/
theorem mixDistance_eq_zero {y : Word} (h : y.toNat < 2 ^ 60) : mixDistance y = 0#4 :=
  mixDistance_eq_of_toNat (by decide) (Nat.div_eq_of_lt h)

/-- Clause (b) of rule R88. -/
theorem mixDistance_eq_fifteen {y : Word} (h : 0xF000000000000000 ≤ y.toNat) : mixDistance y = 15#4 := by
  have hlt : y.toNat < 2 ^ 64 := y.isLt
  exact mixDistance_eq_of_toNat (by decide) (by omega)

theorem mixXor_of_distance_zero {y : Word} (h : mixDistance y = 0#4) : mixXor y = y ^^^ (y >>> 32) := by
  rw [mixXor_eq_shift_in_word, h]
  rfl

/-- At the longest distance the 17 top bits of the word are xored in. -/
theorem mixXor_of_distance_fifteen {y : Word} (h : mixDistance y = 15#4) :
    mixXor y = y ^^^ (y.extractLsb' 47 17).setWidth 64 := by
  have htop : (y >>> 32) >>> 15 = (y.extractLsb' 47 17).setWidth 64 := by
    have hlt : y.toNat < 2 ^ 64 := y.isLt
    refine BitVec.eq_of_toNat_eq ?_
    simp only [BitVec.toNat_ushiftRight, BitVec.toNat_setWidth, BitVec.extractLsb'_toNat, Nat.shiftRight_eq_div_pow]
    omega
  rw [mixXor_eq_shift_in_word, h, ← htop]
  rfl

/-- Clause (c) of rule R88. -/
theorem mixValue_eq_zero {y : Word} (h : y.toNat < 2 ^ 32) : mixValue y = 0#32 := by
  refine BitVec.eq_of_toNat_eq ?_
  rw [mixValue_toNat, Nat.div_eq_of_lt h]
  rfl

theorem diffuse_of_mixValue_zero {m x : Word} (h : mixValue (mixMultiply m x) = 0#32) : diffuse m x = x * m * m := by
  rw [diffuse, mixXor_of_mixValue_zero h, mixMultiply, mixMultiply]

/-- Settles O23: each clause fixes a field of the product, and the field says what is xored in. -/
theorem mixerShiftCornerCases : Obligations.MixerShiftCornerCases := by
  refine ⟨fun y hy => ?smallest, fun y hy => ?longest, fun m x hy => ?low⟩
  case smallest =>
    have hb : mixDistance y = 0#4 := mixDistance_eq_zero hy
    exact ⟨hb, mixXor_of_distance_zero hb⟩
  case longest =>
    have hb : mixDistance y = 15#4 := mixDistance_eq_fifteen hy
    refine ⟨hb, mixXor_of_distance_fifteen hb, fun i hi => getLsbD_mixXor_of_above ?_⟩
    rw [hb]
    exact hi
  case low =>
    have ha : mixValue (mixMultiply m x) = 0#32 := mixValue_eq_zero hy
    exact ⟨ha, mixDistance_eq_zero (by omega), mixXor_of_mixValue_zero ha, diffuse_of_mixValue_zero ha⟩

/-! ### Zero -/

theorem diffuse_zero (m : Word) : diffuse m 0#64 = 0#64 := by
  have hproduct : mixMultiply m 0#64 = 0#64 := zero_mul m
  have ha : mixValue (mixMultiply m 0#64) = 0#32 := by
    rw [hproduct]
    rfl
  rw [diffuse, mixXor_of_mixValue_zero ha, hproduct, hproduct]

/-- The mixer adds nothing to the first increment (rule R87). -/
theorem generatorWord_one (p : Params) : generatorWord p 1 = p.inc :=
  calc generatorWord p 1 = diffuse p.m 0#64 + weylNext p.inc 0#64 := rfl
    _ = 0#64 + (0#64 + p.inc) := by rw [diffuse_zero, weylNext]
    _ = p.inc := by simp

/-- Settles O22, by `diffuse_zero` and what it makes of the first word. -/
theorem zeroIsAFixedPointOfTheMixer : Obligations.ZeroIsAFixedPointOfTheMixer :=
  ⟨diffuse_zero, generatorWord_one⟩

end Sys2Proof.Proofs
end

-- ==== The accumulator: its sum, its period, and what a list of requests makes of it ====
section
/-! PROOF. The family of 41_weyl_accumulator.md: the sum that wraps (rule R101), the full period (rule R103), the closed
form (rule R104) and what the step depends on (rule R105).

The full period is one equivalence, true at every width because an odd increment is coprime to `2 ^ n`: from the same start,
`j` steps and `k` steps end in the same value exactly when `j` and `k` agree modulo `2 ^ n`. So `2 ^ n` steps return, fewer
do not, and the first `2 ^ n` values are distinct; there being `2 ^ n` values, they are all of them. -/

namespace Sys2Proof.Proofs

open Sys2Proof.Machine Sys2Proof.Laws

/-! ### The sum -/

theorem weylNext_toNat {n : Nat} (inc w : BitVec n) : (weylNext inc w).toNat = (w.toNat + inc.toNat) % 2 ^ n :=
  BitVec.toNat_add w inc

/-- The bits of the sum do not say whether its operands were read as signed. -/
theorem weylNext_eq_ofInt {n : Nat} (inc w : BitVec n) : weylNext inc w = BitVec.ofInt n (w.toInt + inc.toInt) := by
  rw [weylNext, BitVec.ofInt_add, BitVec.ofInt_toInt, BitVec.ofInt_toInt]

/-- Settles O24: the sum of two words is below `2 * 2 ^ 64`, so its remainder takes off `2 ^ 64` once or not at all. -/
theorem accumulatorWrapsSilently : Obligations.AccumulatorWrapsSilently := by
  refine fun inc w => ⟨?_, weylNext_eq_ofInt inc w⟩
  have hw : w.toNat < 2 ^ 64 := w.isLt
  have hinc : inc.toNat < 2 ^ 64 := inc.isLt
  rw [weylNext_toNat]
  split <;> omega

/-- Settles O14: every command advances the registers once, and `advance_weyl` reads neither `state` nor the command. -/
theorem accumulatorDependsOnNothingElse : Obligations.AccumulatorDependsOnNothingElse := by
  intro i j s u hweyl
  refine ⟨_, _, exec_eq_acceptRequest i s, exec_eq_acceptRequest j u, rfl, ?_⟩
  rw [acceptRequest_regs, acceptRequest_regs, advance_weyl, advance_weyl, hweyl]

/-! ### The closed form -/

/-- The closed form at every width (rule R104). -/
theorem weylNext_iterate {n : Nat} (inc w : BitVec n) (k : Nat) :
    (weylNext inc)^[k] w = w + BitVec.ofNat n (k * inc.toNat) := by
  induction k with
  | zero => simp
  | succ k ih =>
    rw [Function.iterate_succ_apply', ih, weylNext, Nat.succ_mul, BitVec.ofNat_add, BitVec.ofNat_toNat,
      BitVec.setWidth_eq, add_assoc]

/-! ### The full period -/

theorem coprime_toNat_of_isOdd {n : Nat} {x : BitVec n} (h : isOdd x = true) : Nat.Coprime (2 ^ n) x.toNat := by
  have hodd : Odd x.toNat := by
    rw [isOdd, BitVec.getLsbD, Nat.testBit_zero, decide_eq_true_eq] at h
    exact Nat.odd_iff.mpr h
  exact hodd.coprime_two_left.pow_left n

/-- From one start, two numbers of steps lead to one value exactly when they agree modulo `2 ^ n`. -/
theorem weylNext_iterate_eq_iff {n : Nat} {inc : BitVec n} (h : isOdd inc = true) (w : BitVec n) (j k : Nat) :
    (weylNext inc)^[j] w = (weylNext inc)^[k] w ↔ j ≡ k [MOD 2 ^ n] :=
  calc (weylNext inc)^[j] w = (weylNext inc)^[k] w
    _ ↔ BitVec.ofNat n (j * inc.toNat) = BitVec.ofNat n (k * inc.toNat) := by
      rw [weylNext_iterate, weylNext_iterate, add_right_inj]
    _ ↔ j * inc.toNat ≡ k * inc.toNat [MOD 2 ^ n] := by
      rw [← BitVec.toNat_inj, BitVec.toNat_ofNat, BitVec.toNat_ofNat, Nat.ModEq]
    _ ↔ j ≡ k [MOD 2 ^ n] :=
      ⟨Nat.ModEq.cancel_right_of_coprime (coprime_toNat_of_isOdd h), Nat.ModEq.mul_right inc.toNat⟩

theorem weylNext_iterate_eq_self_iff {n : Nat} {inc : BitVec n} (h : isOdd inc = true) (w : BitVec n) (k : Nat) :
    (weylNext inc)^[k] w = w ↔ 2 ^ n ∣ k :=
  (weylNext_iterate_eq_iff h w k 0).trans Nat.modEq_zero_iff_dvd

/-- `2 ^ n` distinct values among `2 ^ n` are all of them. -/
theorem weylNext_iterate_bijective {n : Nat} {inc : BitVec n} (h : isOdd inc = true) (w : BitVec n) :
    Function.Bijective fun k : Fin (2 ^ n) => (weylNext inc)^[k.val] w := by
  have hinjective : Function.Injective fun k : Fin (2 ^ n) => (weylNext inc)^[k.val] w := fun j k hjk =>
    Fin.ext (((weylNext_iterate_eq_iff h w j k).mp hjk).eq_of_lt_of_lt j.isLt k.isLt)
  exact ⟨hinjective, (Finite.injective_iff_surjective_of_equiv BitVec.equivFin.symm.toEquiv).mp hinjective⟩

/-- Settles O25, by the distinct values and by the steps that lead back to the start. -/
theorem oddIncrementHasFullPeriodAtEveryWidth : Obligations.OddIncrementHasFullPeriodAtEveryWidth := by
  intro n inc w h
  have hbijective := weylNext_iterate_bijective h w
  refine ⟨?bijective, fun v => ?reached, ?returns, fun j hpos hlt hback => ?noEarlier⟩
  case bijective => simpa only [weylNext_iterate] using hbijective
  case reached =>
    obtain ⟨k, hk⟩ := hbijective.surjective v
    exact ⟨k, k.isLt, hk⟩
  case returns => exact (weylNext_iterate_eq_self_iff h w _).mpr dvd_rfl
  case noEarlier => exact Nat.not_dvd_of_pos_of_lt hpos hlt ((weylNext_iterate_eq_self_iff h w j).mp hback)

/-! ### Lists of requests -/

/-- Seen at the accumulator, an advance is the accumulator's own step (rule R105). -/
theorem semiconj_weyl_advance (p : Params) : Function.Semiconj Regs.weyl (advance p) (weylNext p.inc) :=
  advance_weyl p

theorem advance_iterate_weyl (p : Params) (k : Nat) (r : Regs) :
    ((advance p)^[k] r).weyl = r.weyl + BitVec.ofNat 64 (k * p.inc.toNat) :=
  ((semiconj_weyl_advance p).iterate_right k r).trans (weylNext_iterate p.inc r.weyl k)

/-- Commands leave in the registers what as many advances do. -/
theorem transactAll_regs (p : Params) (cmds : List Cmd) (r : Regs) :
    (transactAll p cmds r).1 = (advance p)^[cmds.length] r := by
  induction cmds generalizing r with
  | nil => rfl
  | cons c cs ih => exact ih (advance p r)

/-- Edges that all present a request are cut nowhere. -/
theorem runsOf_map_request (cmds : List Cmd) : runsOf (cmds.map Cycle.request) = (cmds, []) := by
  induction cmds with
  | nil => rfl
  | cons c cs ih =>
    rw [List.map_cons, runsOf_request rfl rfl, ih]
    rfl

/-- A list of requests, each accepted at its own edge: the end names every field of the state. -/
theorem core_run_requests (s : State) (cmds : List Cmd) (rest : List Cycle) :
    Host.Core.run Sys2Proof.core cmds.length { s with inputs := cmds.map Cycle.request ++ rest } =
      .next { regs := (advance Config.params)^[cmds.length] s.regs
              inputs := rest
              responses := s.responses ++ (transactAll Config.params cmds s.regs).2 } := by
  have hrun := core_run_edges (s := { s with inputs := cmds.map Cycle.request ++ rest }) rfl
  rw [List.length_map, runsOf_map_request] at hrun
  rw [hrun, ← transactAll_regs]
  rfl

/-- Settles O26: as many accumulator steps as requests, counted by the closed form. -/
theorem accumulatorCountsAcceptedRequests : Obligations.AccumulatorCountsAcceptedRequests :=
  fun s cmds rest => ⟨_, core_run_requests s cmds rest, rfl, advance_iterate_weyl Config.params cmds.length s.regs⟩

end Sys2Proof.Proofs
end

-- ==== The generator core: the advance, its inverse, the words of a run and their period ====
section
/-! PROOF. The family of 42_generator_core.md: the advance of every command (rules R110, R113), `GEN64` (rule R112), the
recurrence of a run (rule R114), its first word (rule R115), its period (rule R116) and the inverse of the advance (rule R117).

The period is bounded from below by the accumulator alone: equal register pairs hold equal accumulator values, and those are
equal only for numbers of steps that agree modulo `2 ^ 64`. From above it is bounded by the `2 ^ 128` register pairs, among
which an injective advance must lead back to the reset pair. -/

namespace Sys2Proof.Proofs

open Sys2Proof.Machine Sys2Proof.Safety Sys2Proof.Laws

/-! ### The advance and its inverse -/

theorem retreat_advance (p : Params) (r : Regs) : retreat p (advance p r) = r := by
  refine regs_eq ?state ?weyl
  case state =>
    rw [retreat_state, advance_state, advance_weyl, add_sub_cancel_right, undiffuse_diffuse p.mOdd]
  case weyl => rw [retreat_weyl, advance_weyl, weylNext, add_sub_cancel_right]

theorem advance_retreat (p : Params) (r : Regs) : advance p (retreat p r) = r := by
  have hweyl : weylNext p.inc (retreat p r).weyl = r.weyl := by
    rw [retreat_weyl, weylNext, sub_add_cancel]
  refine regs_eq ?state hweyl
  rw [advance_state, hweyl, retreat_state, diffuse_undiffuse p.mOdd, sub_add_cancel]

theorem advance_bijective (p : Params) : Function.Bijective (advance p) :=
  Function.bijective_iff_has_inverse.mpr ⟨retreat p, retreat_advance p, advance_retreat p⟩

/-- Settles O30: `retreat` takes back the sum, then the mixing, then the increment. -/
theorem advanceIsABijectionUndoneByRetreat : Obligations.AdvanceIsABijectionUndoneByRetreat :=
  fun p => ⟨advance_bijective p, retreat_advance p, advance_retreat p⟩

/-- Settles O13: every command accepts one request, and each of the two sums is a sum of words. -/
theorem everyCommandAdvancesBothRegistersOnce : Obligations.EveryCommandAdvancesBothRegistersOnce := by
  refine ⟨fun i s => ⟨_, exec_eq_acceptRequest i s, acceptRequest_regs _ _ s⟩, fun p r => ⟨?weyl, ?state⟩⟩
  case weyl => rw [advance_weyl, weylNext_toNat]
  case state => rw [advance_state, advance_weyl, BitVec.toNat_add]

/-! ### The first step of a run and `GEN64` -/

theorem regsAfter_one (p : Params) : regsAfter p 1 = { state := p.inc, weyl := p.inc } :=
  regs_eq (generatorWord_one p) (BitVec.zero_add p.inc)

/-- Settles O17: whatever the command, it is the first advance from the reset pair. -/
theorem firstWordOfEveryRunIsTheIncrement : Obligations.FirstWordOfEveryRunIsTheIncrement := by
  refine ⟨fun i s hregs => ⟨_, exec_eq_acceptRequest i s, ?_⟩, generatorWord_one⟩
  have hreset : s.regs = Regs.reset := hregs
  rw [acceptRequest_regs, hreset, ← regsAfter_one]
  rfl

theorem exec_gen64 (s : State) :
    exec .gen64 s = .next
      { regs := advance Config.params s.regs
        inputs := s.inputs
        responses := s.responses ++ [(advance Config.params s.regs).state] } :=
  exec_eq_acceptRequest .gen64 s

/-- Settles O11: `exec_gen64` names every field, and at reset the new word is the first word of a run. -/
theorem gen64AnswersTheWholeNewWord : Obligations.Gen64AnswersTheWholeNewWord := by
  refine ⟨⟨rfl, rfl, rfl, rfl, rfl⟩, exec_gen64, ⟨_, exec_gen64 State.reset, ?first⟩, ?worked⟩
  case first => exact congrArg (fun word => [word]) (generatorWord_one Config.params)
  case worked => decide

/-! ### The recurrence of a run -/

theorem regsAfter_weyl (p : Params) (k : Nat) : (regsAfter p k).weyl = BitVec.ofNat 64 (k * p.inc.toNat) :=
  (advance_iterate_weyl p k Regs.reset).trans (BitVec.zero_add _)

/-- The word of a step is made of the word before it and of the accumulator after it. -/
theorem generatorWord_succ (p : Params) (k : Nat) :
    generatorWord p (k + 1) = diffuse p.m (generatorWord p k) + (regsAfter p (k + 1)).weyl := by
  rw [generatorWord, regsAfter_succ, advance_state, advance_weyl, generatorWord]

/-- A list of requests presented right after reset makes one step of the run each. -/
theorem core_run_start_requests (cmds : List Cmd) :
    Host.Core.run Sys2Proof.core cmds.length (start (cmds.map Cycle.request)) =
      .next { regs := regsAfter Config.params cmds.length
              inputs := []
              responses := (transactAll Config.params cmds Regs.reset).2 } := by
  have hrun := core_run_requests State.reset cmds []
  rw [List.append_nil] at hrun
  exact hrun

/-- Settles O27: the recurrence at the closed form of the accumulator, and the registers that `cmds.length` requests
leave, in which the commands themselves do not occur. -/
theorem wordsFollowTheRecurrenceWhateverTheCommands : Obligations.WordsFollowTheRecurrenceWhateverTheCommands := by
  refine ⟨fun p k => ⟨regsAfter_weyl p k, ?_⟩, fun cmds => ⟨_, core_run_start_requests cmds, rfl⟩⟩
  rw [generatorWord_succ, regsAfter_weyl]

/-! ### The period from below -/

/-- Two numbers of advances leave equal accumulators exactly when they agree modulo `2 ^ 64`. -/
theorem advance_iterate_weyl_eq_iff (p : Params) (r : Regs) (j k : Nat) :
    ((advance p)^[j] r).weyl = ((advance p)^[k] r).weyl ↔ j ≡ k [MOD 2 ^ 64] := by
  rw [(semiconj_weyl_advance p).iterate_right j r, (semiconj_weyl_advance p).iterate_right k r,
    weylNext_iterate_eq_iff p.incOdd]

theorem advance_iterate_ne (p : Params) (r : Regs) {j k : Nat} (hlt : j < k) (hnear : k < j + 2 ^ 64) :
    (advance p)^[j] r ≠ (advance p)^[k] r := by
  intro heq
  have hmod : j ≡ k [MOD 2 ^ 64] := (advance_iterate_weyl_eq_iff p r j k).mp (congrArg Regs.weyl heq)
  have hdvd : 2 ^ 64 ∣ k - j := (Nat.modEq_iff_dvd' hlt.le).mp hmod
  exact Nat.not_dvd_of_pos_of_lt (Nat.sub_pos_of_lt hlt) (by omega) hdvd

/-- Two consecutive words determine the accumulator (rule R33), so where both repeat it repeats too. -/
theorem regsAfter_weyl_eq_of_words {p : Params} {j k : Nat} (hold : generatorWord p j = generatorWord p k)
    (hnew : generatorWord p (j + 1) = generatorWord p (k + 1)) :
    (regsAfter p (j + 1)).weyl = (regsAfter p (k + 1)).weyl := by
  rw [generatorWord_succ, generatorWord_succ, hold] at hnew
  exact add_left_cancel hnew

/-- A period of the words, if only from `k0` on, is a multiple of the accumulator's period. -/
theorem dvd_of_generatorWord_periodic {p : Params} {period k0 : Nat}
    (h : ∀ k, k0 ≤ k → generatorWord p (k + period) = generatorWord p k) : 2 ^ 64 ∣ period := by
  have hnew : generatorWord p (k0 + period + 1) = generatorWord p (k0 + 1) := by
    rw [Nat.add_right_comm]
    exact h (k0 + 1) (Nat.le_succ k0)
  have hmod : k0 + period + 1 ≡ k0 + 1 [MOD 2 ^ 64] :=
    (advance_iterate_weyl_eq_iff p Regs.reset _ _).mp (regsAfter_weyl_eq_of_words (h k0 le_rfl) hnew)
  have hperiod : k0 + period ≡ k0 + 0 [MOD 2 ^ 64] := Nat.ModEq.add_right_cancel' 1 hmod
  exact Nat.modEq_zero_iff_dvd.mp (Nat.ModEq.add_left_cancel' k0 hperiod)

/-- Settles O29: (a) by the accumulator in the pair, (b) by the accumulator that two consecutive words determine. -/
theorem noPeriodBelowTheAccumulators : Obligations.NoPeriodBelowTheAccumulators := by
  refine ⟨fun p r j k => advance_iterate_ne p r, fun p period hndvd k0 => ?_⟩
  by_contra! hperiodic
  exact hndvd (dvd_of_generatorWord_periodic hperiodic)

/-! ### The period from above -/

/-- A register pair is a pair of words. -/
def regsEquiv : Regs ≃ Word × Word where
  toFun r := (r.state, r.weyl)
  invFun x := { state := x.1, weyl := x.2 }
  left_inv _ := rfl
  right_inv _ := rfl

/-- "Exactly two registers" of 64 bits (rule R20) hold `2 ^ 128` values. -/
theorem natCard_regs : Nat.card Regs = 2 ^ 128 := by
  have hword : Nat.card Word = 2 ^ 64 := by
    rw [Nat.card_congr BitVec.equivFin.toEquiv, Nat.card_fin]
  rw [Nat.card_congr regsEquiv, Nat.card_prod, hword, ← pow_add]

theorem finite_regs : Finite Regs :=
  Nat.finite_of_card_ne_zero (by rw [natCard_regs]; exact pow_ne_zero 128 two_ne_zero)

/-- The period of a run: the least number of steps that lead back to the reset pair. -/
noncomputable def runPeriod (p : Params) : Nat := Function.minimalPeriod (advance p) Regs.reset

theorem runPeriod_pos (p : Params) : 0 < runPeriod p := by
  have := finite_regs
  exact Function.minimalPeriod_pos_of_mem_periodicPts ((advance_bijective p).injective.mem_periodicPts Regs.reset)

theorem runPeriod_le (p : Params) : runPeriod p ≤ 2 ^ 128 := by
  have := finite_regs
  have := Fintype.ofFinite Regs
  rw [← natCard_regs, Nat.card_eq_fintype_card]
  exact Function.minimalPeriod_le_card

theorem regsAfter_runPeriod (p : Params) : regsAfter p (runPeriod p) = Regs.reset :=
  Function.iterate_minimalPeriod

theorem dvd_runPeriod (p : Params) : 2 ^ 64 ∣ runPeriod p := by
  have hweyl : ((advance p)^[runPeriod p] Regs.reset).weyl = ((advance p)^[0] Regs.reset).weyl :=
    congrArg Regs.weyl (regsAfter_runPeriod p)
  exact Nat.modEq_zero_iff_dvd.mp ((advance_iterate_weyl_eq_iff p Regs.reset (runPeriod p) 0).mp hweyl)

theorem regsAfter_add_runPeriod (p : Params) (k : Nat) : regsAfter p (k + runPeriod p) = regsAfter p k :=
  Function.iterate_add_minimalPeriod_eq

theorem regsAfter_ne_of_lt_runPeriod (p : Params) {j k : Nat} (hjk : j < k) (hk : k < runPeriod p) :
    regsAfter p j ≠ regsAfter p k := fun heq =>
  hjk.ne (Function.iterate_injOn_Iio_minimalPeriod (hjk.trans hk) hk heq)

/-- Settles O31: the least return to the reset pair is a period with all that is asked of one. -/
theorem runReturnsToResetBeforeItRepeats : Obligations.RunReturnsToResetBeforeItRepeats :=
  fun p => ⟨runPeriod p, runPeriod_pos p, runPeriod_le p, dvd_runPeriod p, regsAfter_runPeriod p,
    regsAfter_add_runPeriod p, fun _ _ => regsAfter_ne_of_lt_runPeriod p⟩

end Sys2Proof.Proofs
end

-- ==== The output extractor: halves, bit reversal, the staged network, the multiplexer ====
section
/-! PROOF. The family of 43_output_extractor.md: the split and the join of a word (rules R125, R126, R139), bit reversal
(rules R127, R137), the staged network (rules R128 to R133, R138), the reversed projections (rules R134, R135, R140) and the
multiplexer (rule R136).

The reversal and each stage of the network do the same kind of thing: they move bits by xor of a fixed number into the
bit's position (`movesBitsByXor`), 31 for the reversal and `2 ^ k` for stage `k`. Such operations compose by xor of their
numbers, so they are involutions, they commute, and the five stages together are the reversal because their numbers
make 31. -/

namespace Sys2Proof.Proofs

open Sys2Proof.Machine Sys2Proof.Laws

/-! ### The two halves of a word -/

theorem high32_append_low32 (x : Word) : (high32 x ++ low32 x : BitVec (32 + 32)) = x := by
  have hjoin : (high32 x ++ low32 x : BitVec (32 + 32)) = x.extractLsb' 0 (32 + 32) :=
    BitVec.extractLsb'_append_extractLsb'_eq_extractLsb' rfl
  exact hjoin.trans BitVec.extractLsb'_eq_self

theorem low32_append (hi lo : Half) : low32 (hi ++ lo : BitVec (32 + 32)) = lo :=
  BitVec.extractLsb'_append_eq_right

theorem high32_append (hi lo : Half) : high32 (hi ++ lo : BitVec (32 + 32)) = hi :=
  BitVec.extractLsb'_append_eq_left

/-- Moved up by 32, a zero-extended half is the upper half of a word and nothing below it. -/
theorem getLsbD_zext64_shiftLeft (h : Half) (i : Nat) :
    (zext64 h <<< 32).getLsbD i = (decide (32 ≤ i) && h.getLsbD (i - 32)) := by
  rw [BitVec.getLsbD_shiftLeft, getLsbD_zext64]
  by_cases hlow : i < 32
  · simp [hlow, Nat.not_le.mpr hlow]
  · by_cases hword : i < 64
    · simp [hword, Nat.not_lt.mp hlow, show i - 32 < 64 by omega]
    · simp [hword, BitVec.getLsbD_of_ge h (i - 32) (by omega)]

/-- A zero-extended half has no bit in the upper half of a word. -/
theorem zext64_shiftLeft_and_zext64 (hi lo : Half) : (zext64 hi <<< 32) &&& zext64 lo = 0#64 := by
  refine BitVec.eq_of_getLsbD_eq fun i _ => ?_
  rw [BitVec.getLsbD_and, getLsbD_zext64_shiftLeft, getLsbD_zext64, BitVec.getLsbD_zero]
  by_cases hlow : i < 32
  · simp [hlow]
  · simp [BitVec.getLsbD_of_ge lo i (Nat.not_lt.mp hlow)]

theorem zext64_shiftLeft_or_zext64 (hi lo : Half) :
    (zext64 hi <<< 32) ||| zext64 lo = (hi ++ lo : BitVec (32 + 32)) := by
  refine BitVec.eq_of_getLsbD_eq fun i hi64 => ?_
  rw [BitVec.getLsbD_or, getLsbD_zext64_shiftLeft, getLsbD_zext64, BitVec.getLsbD_append]
  by_cases hlow : i < 32
  · simp [hlow, hi64]
  · simp [hlow, Nat.not_lt.mp hlow]

/-- Settles O36: shifted and joined by "or", two halves are their concatenation, which for the halves of `x` is `x`. -/
theorem halvesJoinToTheWord : Obligations.HalvesJoinToTheWord := fun x =>
  ⟨(zext64_shiftLeft_or_zext64 _ _).trans (high32_append_low32 x), zext64_shiftLeft_and_zext64 _ _,
    high32_append_low32 x⟩

/-! ### Operations that move bits by xor of a number into their position -/

/-- Bit `i` of the result is bit `i xor d` of the operand. -/
def movesBitsByXor (d : Nat) (f : Half → Half) : Prop :=
  ∀ (v : Half) (i : Nat), i < 32 → (f v).getLsbD i = v.getLsbD (i ^^^ d)

theorem movesBitsByXor_id : movesBitsByXor 0 id := fun v i _ => by
  rw [Nat.xor_zero, id]

/-- The number determines the operation. -/
theorem movesBitsByXor_unique {d : Nat} {f g : Half → Half} (hf : movesBitsByXor d f) (hg : movesBitsByXor d g) :
    f = g :=
  funext fun v => BitVec.eq_of_getLsbD_eq fun i hi => (hf v i hi).trans (hg v i hi).symm

theorem movesBitsByXor_comp {d e : Nat} {f g : Half → Half} (he : e < 32) (hg : movesBitsByXor e g)
    (hf : movesBitsByXor d f) : movesBitsByXor (e ^^^ d) (g ∘ f) := fun v i hi =>
  calc (g (f v)).getLsbD i
    _ = (f v).getLsbD (i ^^^ e) := hg (f v) i hi
    _ = v.getLsbD (i ^^^ e ^^^ d) := hf v _ (Nat.xor_lt_two_pow (n := 5) hi he)
    _ = v.getLsbD (i ^^^ (e ^^^ d)) := by rw [Nat.xor_assoc]

theorem movesBitsByXor_involutive {d : Nat} {f : Half → Half} (hd : d < 32) (hf : movesBitsByXor d f) :
    Function.Involutive f := by
  have htwice := movesBitsByXor_comp hd hf hf
  rw [Nat.xor_self] at htwice
  exact congrFun (movesBitsByXor_unique htwice movesBitsByXor_id)

theorem movesBitsByXor_commute {d e : Nat} {f g : Half → Half} (hd : d < 32) (he : e < 32)
    (hf : movesBitsByXor d f) (hg : movesBitsByXor e g) : Function.Commute f g := by
  have hgf := movesBitsByXor_comp he hg hf
  rw [Nat.xor_comm] at hgf
  exact congrFun (movesBitsByXor_unique (movesBitsByXor_comp hd hf hg) hgf)

/-! ### Bit reversal -/

theorem sub_eq_xor_31 : ∀ i < 32, 31 - i = i ^^^ 31 := by decide

theorem getLsbD_reverse32_of_lt (v : Half) {i : Nat} (hi : i < 32) :
    (reverse32 v).getLsbD i = v.getLsbD (31 - i) := by
  simp only [getLsbD_reverse32, hi, decide_true, Bool.true_and]

theorem reverse32_movesBitsByXor : movesBitsByXor 31 reverse32 := fun v i hi => by
  rw [getLsbD_reverse32_of_lt v hi, sub_eq_xor_31 i hi]

theorem reverse32_involutive : Function.Involutive reverse32 :=
  movesBitsByXor_involutive (by decide) reverse32_movesBitsByXor

/-- Settles O38: two moves by xor of 31 are none, and an involution is a bijection. -/
theorem reversalIsAnInvolution : Obligations.ReversalIsAnInvolution :=
  ⟨reverse32_involutive, reverse32_involutive.bijective⟩

theorem reverse32_eq_self_iff (v : Half) :
    reverse32 v = v ↔ ∀ i, i < 32 → v.getLsbD i = v.getLsbD (31 - i) := by
  rw [BitVec.eq_of_getLsbD_eq_iff]
  refine forall₂_congr fun i hi => ?_
  rw [getLsbD_reverse32_of_lt v hi, eq_comm]

/-! ### The staged network -/

/-- The shape the masked stages share: swap neighbouring groups of `2 ^ k` bits, with the mask of the lower groups. -/
def swapGroups (k : Nat) (mask : Half) (v : Half) : Half :=
  ((v >>> 2 ^ k) &&& mask) ||| ((v &&& mask) <<< 2 ^ k)

/-- The mask of the lower groups: the positions in which bit `k` is 0. -/
abbrev masksLowerGroups (k : Nat) (mask : Half) : Prop := ∀ i < 32, mask.getLsbD i = !i.testBit k

/-- Moved up by a group, the mask of the lower groups covers the upper groups. -/
theorem masksLowerGroups_shiftLeft {k : Nat} {mask : Half} (hmask : masksLowerGroups k mask) {i : Nat} (hi : i < 32) :
    (mask <<< 2 ^ k).getLsbD i = i.testBit k := by
  rw [BitVec.getLsbD_shiftLeft]
  by_cases hlow : i < 2 ^ k
  · simp [hlow, Nat.testBit_lt_two_pow hlow]
  · obtain ⟨j, rfl⟩ := Nat.exists_eq_add_of_le (Nat.not_lt.mp hlow)
    have hj : j < 32 := lt_of_le_of_lt (Nat.le_add_left j _) hi
    simp [hi, hmask j hj, Nat.testBit_two_pow_add_eq]

theorem getLsbD_swapGroups {k : Nat} {mask : Half} (hmask : masksLowerGroups k mask) (v : Half) {i : Nat}
    (hi : i < 32) :
    (swapGroups k mask v).getLsbD i = if i.testBit k then v.getLsbD (i - 2 ^ k) else v.getLsbD (2 ^ k + i) := by
  rw [swapGroups, BitVec.shiftLeft_and_distrib, BitVec.getLsbD_or, BitVec.getLsbD_and, BitVec.getLsbD_and,
    BitVec.getLsbD_ushiftRight, hmask i hi, masksLowerGroups_shiftLeft hmask hi, BitVec.getLsbD_shiftLeft]
  cases hbit : i.testBit k with
  | false => simp
  | true => simp [hi, Nat.ge_two_pow_of_testBit hbit]

/-- Among 32 positions, xor of `2 ^ k` goes to the same place in the neighbouring group of `2 ^ k`. -/
theorem xor_two_pow_eq :
    ∀ k < 5, ∀ i < 32, i ^^^ 2 ^ k = if i.testBit k then i - 2 ^ k else 2 ^ k + i := by decide

theorem swapGroups_movesBitsByXor {k : Nat} {mask : Half} (hk : k < 5) (hmask : masksLowerGroups k mask) :
    movesBitsByXor (2 ^ k) (swapGroups k mask) := fun v i hi => by
  rw [getLsbD_swapGroups hmask v hi, xor_two_pow_eq k hk i hi, apply_ite v.getLsbD]

theorem swapBits_movesBitsByXor : movesBitsByXor (2 ^ 0) swapBits :=
  swapGroups_movesBitsByXor (mask := 0x55555555#32) (by decide) (by decide)

theorem swapPairs_movesBitsByXor : movesBitsByXor (2 ^ 1) swapPairs :=
  swapGroups_movesBitsByXor (mask := 0x33333333#32) (by decide) (by decide)

theorem swapNibbles_movesBitsByXor : movesBitsByXor (2 ^ 2) swapNibbles :=
  swapGroups_movesBitsByXor (mask := 0x0F0F0F0F#32) (by decide) (by decide)

theorem swapBytes_movesBitsByXor : movesBitsByXor (2 ^ 3) swapBytes :=
  swapGroups_movesBitsByXor (mask := 0x00FF00FF#32) (by decide) (by decide)

/-- The last stage writes no mask: its shifts by 16 already drop what a mask would. -/
theorem swapHalves_movesBitsByXor : movesBitsByXor (2 ^ 4) swapHalves := fun v i hi => by
  rw [swapHalves, BitVec.getLsbD_or, BitVec.getLsbD_ushiftRight, BitVec.getLsbD_shiftLeft,
    xor_two_pow_eq 4 (by decide) i hi]
  by_cases hlow : i < 16
  · have hbit : i.testBit 4 = false := Nat.testBit_lt_two_pow hlow
    simp [hlow, hbit]
  · have hbit : i.testBit 4 = true := Nat.testBit_of_two_pow_le_and_two_pow_add_one_gt (Nat.not_lt.mp hlow) hi
    have hdropped : v.getLsbD (16 + i) = false := BitVec.getLsbD_of_ge v _ (by omega)
    simp [hi, hlow, hbit, hdropped]

theorem lt_five_of_stage {k : Nat} {stage : Half → Half} (h : reversalStages[k]? = some stage) : k < 5 :=
  (List.getElem?_eq_some_iff.mp h).1

theorem stage_movesBitsByXor {k : Nat} {stage : Half → Half} (h : reversalStages[k]? = some stage) :
    movesBitsByXor (2 ^ k) stage :=
  match k, h with
  | 0, rfl => swapBits_movesBitsByXor
  | 1, rfl => swapPairs_movesBitsByXor
  | 2, rfl => swapNibbles_movesBitsByXor
  | 3, rfl => swapBytes_movesBitsByXor
  | 4, rfl => swapHalves_movesBitsByXor

theorem stage_distance_lt {k : Nat} {stage : Half → Half} (h : reversalStages[k]? = some stage) : 2 ^ k < 32 :=
  Nat.pow_lt_pow_right (by decide) (lt_five_of_stage h)

theorem stages_commute {f g : Half → Half} (hf : f ∈ reversalStages) (hg : g ∈ reversalStages) :
    Function.Commute f g := by
  obtain ⟨j, hj⟩ := List.mem_iff_getElem?.mp hf
  obtain ⟨k, hk⟩ := List.mem_iff_getElem?.mp hg
  exact movesBitsByXor_commute (stage_distance_lt hj) (stage_distance_lt hk) (stage_movesBitsByXor hj)
    (stage_movesBitsByXor hk)

/-- One bit of 31 per stage. -/
theorem reverseNetwork_movesBitsByXor : movesBitsByXor 31 reverseNetwork :=
  movesBitsByXor_comp (by decide) swapHalves_movesBitsByXor <|
  movesBitsByXor_comp (by decide) swapBytes_movesBitsByXor <|
  movesBitsByXor_comp (by decide) swapNibbles_movesBitsByXor <|
  movesBitsByXor_comp (by decide) swapPairs_movesBitsByXor swapBits_movesBitsByXor

theorem reverseNetwork_eq_reverse32 : reverseNetwork = reverse32 :=
  movesBitsByXor_unique reverseNetwork_movesBitsByXor reverse32_movesBitsByXor

/-- Stages that commute may change places. -/
theorem throughStages_perm {stages : List (Half → Half)} (h : stages.Perm reversalStages) (v : Half) :
    throughStages stages v = reverseNetwork v :=
  h.foldl_eq' (fun _ hf _ hg u => (stages_commute (h.subset hf) (h.subset hg) u).symm) v

/-- Settles O39: stage `k` moves bits by xor of `2 ^ k`, the five in series by xor of 31, and they may change places. -/
theorem stagedNetworkReversesInAnyOrder : Obligations.StagedNetworkReversesInAnyOrder :=
  ⟨fun _ _ h => ⟨stage_movesBitsByXor h, movesBitsByXor_involutive (stage_distance_lt h) (stage_movesBitsByXor h)⟩,
    congrFun reverseNetwork_eq_reverse32,
    fun _ v h => (throughStages_perm h v).trans (congrFun reverseNetwork_eq_reverse32 v)⟩

/-- Settles O37: the bits by `getLsbD_reverse32_of_lt`, the fixed points by `reverse32_eq_self_iff`; the values are read off
the network, whose shifts and masks evaluate. -/
theorem reversalMovesEveryBit : Obligations.ReversalMovesEveryBit := by
  refine ⟨fun v _ => getLsbD_reverse32_of_lt v, reverse32_eq_self_iff, ?values⟩
  rw [← reverseNetwork_eq_reverse32]
  decide

/-! ### The reversed projections and the multiplexer -/

theorem getLsbD_high32Reversed (x : Word) {i : Nat} (hi : i < 32) :
    (high32Reversed x).getLsbD i = x.getLsbD (63 - i) := by
  have hpos : 32 + (31 - i) = 63 - i := by omega
  rw [high32Reversed, getLsbD_reverse32_of_lt _ hi, getLsbD_high32, hpos, decide_eq_true (by omega), Bool.true_and]

theorem getLsbD_low32Reversed (x : Word) {i : Nat} (hi : i < 32) :
    (low32Reversed x).getLsbD i = x.getLsbD (31 - i) := by
  rw [low32Reversed, getLsbD_reverse32_of_lt _ hi, getLsbD_low32, decide_eq_true (by omega), Bool.true_and]

/-- Settles O40: the reversal bit by bit over the halves bit by bit; the worked examples are read off the network. -/
theorem reversedProjectionsBitByBit : Obligations.ReversedProjectionsBitByBit := by
  refine ⟨fun x i hi => ⟨getLsbD_high32Reversed x hi, getLsbD_low32Reversed x hi⟩, fun x => ⟨rfl, rfl⟩, ?examples⟩
  rw [high32Reversed, low32Reversed, ← reverseNetwork_eq_reverse32]
  decide

theorem reverse32_high32Reversed (x : Word) : reverse32 (high32Reversed x) = high32 x := reverse32_involutive _

theorem reverse32_low32Reversed (x : Word) : reverse32 (low32Reversed x) = low32 x := reverse32_involutive _

/-- The lower half of the reversed word comes from the upper half of the word. -/
theorem getLsbD_reversed_append (x : Word) {i : Nat} (hi : i < 64) :
    (low32Reversed x ++ high32Reversed x : BitVec (32 + 32)).getLsbD i = x.getLsbD (63 - i) := by
  rw [BitVec.getLsbD_append]
  by_cases hlow : i < 32
  · rw [if_pos hlow, getLsbD_high32Reversed x hlow]
  · have hpos : 31 - (i - 32) = 63 - i := by omega
    rw [if_neg hlow, getLsbD_low32Reversed x (by omega), hpos]

/-- Settles O41: reversed again, the projections are the halves, which join to the word; and of a joined word each projection
sees its own half. -/
theorem reversedHalvesJoinToTheReversedWord : Obligations.ReversedHalvesJoinToTheReversedWord := by
  refine ⟨fun x _ => getLsbD_reversed_append x, fun x => ?rejoin, fun hi lo => ?projections⟩
  case rejoin => rw [reverse32_high32Reversed, reverse32_low32Reversed, high32_append_low32]
  case projections =>
    exact ⟨low32_append hi lo, congrArg reverse32 (low32_append hi lo), high32_append hi lo,
      congrArg reverse32 (high32_append hi lo)⟩

/-- Settles O42: each `sel` decides both of `extract`'s choices; the worked example is read off the network. -/
theorem extractSelectsThenReverses : Obligations.ExtractSelectsThenReverses := by
  refine ⟨fun x => ⟨rfl, rfl, rfl, rfl⟩, ?worked⟩
  have hreversed (x : Word) : extract 0b11#2 x = reverseNetwork (high32 x) := by
    rw [reverseNetwork_eq_reverse32]
    rfl
  rw [hreversed]
  decide

end Sys2Proof.Proofs
end

-- ==== The generator interface: one whole word per request, and the four NEXT32 commands ====
section
/-! PROOF. The family of 44_generator_interface.md: the four `NEXT32` commands (rules R150 to R153), and the word that each
request of a run consumes whole (rules R154, R156).

A `NEXT32` command zero-extends one half of the new word, so its response is known bit by bit once the 32 bits of that half
are; the rest, the same for the four, is `exec_answers`. The responses of a list of commands are the list itself, each command
replaced by its projection of the word of its own position. -/

namespace Sys2Proof.Proofs

open Sys2Proof.Machine Sys2Proof.Safety Sys2Proof.Laws

/-! ### One whole word per request -/

/-- The `k`-th command answers from the word of the `k`-th advance; half words are not kept for a later command. -/
theorem transactAll_responses (p : Params) (cmds : List Cmd) (r : Regs) :
    (transactAll p cmds r).2 = cmds.mapIdx fun k c => response c ((advance p)^[k + 1] r).state := by
  induction cmds generalizing r with
  | nil => rfl
  | cons c cs ih =>
    rw [transactAll_cons, List.mapIdx_cons, ih (advance p r)]
    rfl

/-- Settles O28: the end of a run of requests, with the responses of `transactAll_responses` from the reset pair. -/
theorem eachRequestConsumesOneWholeWord : Obligations.EachRequestConsumesOneWholeWord := by
  intro cmds
  refine ⟨_, core_run_start_requests cmds, ?length, fun k c hk => ?response, rfl, regsAfter_weyl _ _⟩
  case length => rw [transactAll_responses, List.length_mapIdx]
  case response =>
    rw [transactAll_responses, List.getElem?_mapIdx, hk]
    rfl

/-! ### The bits of a response -/

/-- A zero-extended half has the bits of the half and none above them. -/
theorem getLsbD_zext64_of_bits {h : Half} {bit : Nat → Bool} (hbits : ∀ i < 32, h.getLsbD i = bit i) (i : Nat) :
    (zext64 h).getLsbD i = (decide (i < 32) && bit i) := by
  rw [getLsbD_zext64]
  by_cases hi : i < 32
  · rw [hbits i hi, decide_eq_true hi, decide_eq_true (by omega : i < 64)]
  · simp [hi, BitVec.getLsbD_of_ge h i (Nat.not_lt.mp hi)]

theorem getLsbD_projection_next32Lo (word : Word) :
    ∀ i, (projection .next32Lo word).getLsbD i = (decide (i < 32) && word.getLsbD i) :=
  getLsbD_zext64_of_bits fun i hi => by rw [getLsbD_low32, decide_eq_true hi, Bool.true_and]

theorem getLsbD_projection_next32Hi (word : Word) :
    ∀ i, (projection .next32Hi word).getLsbD i = (decide (i < 32) && word.getLsbD (32 + i)) :=
  getLsbD_zext64_of_bits fun i hi => by rw [getLsbD_high32, decide_eq_true hi, Bool.true_and]

theorem getLsbD_projection_next32Lor (word : Word) :
    ∀ i, (projection .next32Lor word).getLsbD i = (decide (i < 32) && word.getLsbD (31 - i)) :=
  getLsbD_zext64_of_bits fun _ hi => getLsbD_low32Reversed word hi

theorem getLsbD_projection_next32Hir (word : Word) :
    ∀ i, (projection .next32Hir word).getLsbD i = (decide (i < 32) && word.getLsbD (63 - i)) :=
  getLsbD_zext64_of_bits fun _ hi => getLsbD_high32Reversed word hi

/-! ### The reversed projections evaluated

`reverse32` is given bit by bit; the staged network is the form of it that evaluates on a word (rule R138). -/

theorem projection_next32Lor_eq_network (word : Word) :
    projection .next32Lor word = zext64 (reverseNetwork (low32 word)) := by
  rw [reverseNetwork_eq_reverse32]
  rfl

theorem projection_next32Hir_eq_network (word : Word) :
    projection .next32Hir word = zext64 (reverseNetwork (high32 word)) := by
  rw [reverseNetwork_eq_reverse32]
  rfl

/-! ### The four commands -/

/-- Every command completes in every state, and its response has the bits that its projection has of the new word. -/
theorem exec_answers {cmd : Instr} {bit : Word → Nat → Bool}
    (hbits : ∀ word i, (projection cmd word).getLsbD i = bit word i) (s : State) :
    ∃ t rsp, exec cmd s = .next t ∧ t.regs = advance Config.params s.regs ∧ t.inputs = s.inputs ∧
      t.responses = s.responses ++ [rsp] ∧ ∀ i, rsp.getLsbD i = bit t.regs.state i :=
  ⟨_, _, exec_eq_acceptRequest cmd s, acceptRequest_regs _ _ s, acceptRequest_inputs _ _ s,
    acceptRequest_responses _ _ s, hbits _⟩

/-- The first step of a run, on which the worked examples are: a command projects the increment (rule R115). -/
theorem transact_reset (p : Params) (c : Cmd) :
    transact p c Regs.reset = ({ state := p.inc, weyl := p.inc }, projection (decode c) p.inc) := by
  have hfirst : advance p Regs.reset = { state := p.inc, weyl := p.inc } := regsAfter_one p
  rw [transact, hfirst, projection_decode]

/-- Settles O7, with the low half bit by bit. -/
theorem next32LoAnswersTheLowHalf : Obligations.Next32LoAnswersTheLowHalf := by
  refine ⟨decode_000, exec_answers getLsbD_projection_next32Lo, ?worked⟩
  rw [transact_reset, decode_000]
  decide

/-- Settles O8, with the high half bit by bit. -/
theorem next32HiAnswersTheHighHalf : Obligations.Next32HiAnswersTheHighHalf := by
  refine ⟨decode_001, exec_answers getLsbD_projection_next32Hi, ?worked⟩
  rw [transact_reset, decode_001]
  decide

/-- Settles O9, with the reversed low half bit by bit; the worked example is read off the network. -/
theorem next32LorAnswersTheLowHalfReversed : Obligations.Next32LorAnswersTheLowHalfReversed := by
  refine ⟨decode_010, exec_answers getLsbD_projection_next32Lor, ?worked⟩
  rw [transact_reset, decode_010, projection_next32Lor_eq_network]
  decide

/-- Settles O10, with the reversed high half bit by bit; the worked example is read off the network. -/
theorem next32HirAnswersTheHighHalfReversed : Obligations.Next32HirAnswersTheHighHalfReversed := by
  refine ⟨decode_011, exec_answers getLsbD_projection_next32Hir, ?worked⟩
  rw [transact_reset, decode_011, projection_next32Hir_eq_network]
  decide

end Sys2Proof.Proofs
end

-- ==== Exceptions and multiprocessing: no step stops, and instances share nothing ====
section
/-! PROOF. The family of 60_exceptions.md: no command and no step has another outcome than a next state (rules R165, R166),
and instances that stand side by side share nothing (rule R175, 20_memory.md rule R47).

A sequence of requests is followed from the place of one instance: a request to that place is the next command of the
instance's own run, a request to any other place leaves it as it is. Of a run only its length reaches the registers, so
copies that were given equally many requests hold the same. -/

namespace Sys2Proof.Proofs

open Sys2Proof.Machine Sys2Proof.Laws

/-! ### Every step has a next state -/

theorem step_exists_next (s : State) : ∃ t, step s = .next t := by
  cases hi : s.inputs with
  | nil => exact ⟨s, step_nil hi⟩
  | cons c rest =>
    obtain ⟨t, hedge, _⟩ := edge_next_inputs c { s with inputs := rest }
    exact ⟨t, (step_cons hi).trans hedge⟩

/-- Settles O48: a command only ever accepts its request, and a step is an idle edge or the edge of the first pins listed. -/
theorem noCommandFaultsOrIsRefused : Obligations.NoCommandFaultsOrIsRefused :=
  ⟨fun cmd s => ⟨_, _, exec_decode cmd s, acceptRequest_responses _ _ s⟩, step_exists_next⟩

/-! ### Instances share nothing -/

theorem commandsTo_cons_target (q : Addressed) (qs : List Addressed) :
    commandsTo q.target (q :: qs) = q.cmd :: commandsTo q.target qs := by
  simp [commandsTo]

theorem commandsTo_cons_other {q : Addressed} {k : Nat} (hk : q.target ≠ k) (qs : List Addressed) :
    commandsTo k (q :: qs) = commandsTo k qs := by
  simp [commandsTo, hk]

/-- The run of one place: whatever is asked of the others, its instance makes the steps of its own commands. -/
theorem getElem?_runInstances {xs : List Instance} {k : Nat} {x : Instance} (hx : xs[k]? = some x)
    (qs : List Addressed) :
    (runInstances qs xs)[k]? = some { x with regs := (transactAll x.params (commandsTo k qs) x.regs).1 } := by
  induction qs generalizing xs x with
  | nil => exact hx
  | cons q qs ih =>
    rw [runInstances_cons]
    by_cases hk : q.target = k
    · subst hk
      rw [ih (stepInstances_target hx), commandsTo_cons_target, transactAll_cons]
    · rw [ih ((stepInstances_other hk xs).trans hx), commandsTo_cons_other hk]

/-- From its own reset an instance counts its requests: what they ask for is not seen in it. -/
theorem getElem?_runInstances_afterReset {xs : List Instance} {k : Nat} {p : Params}
    (hx : xs[k]? = some (Instance.afterReset p)) (qs : List Addressed) :
    (runInstances qs xs)[k]? = some { params := p, regs := regsAfter p (commandsTo k qs).length } := by
  rw [getElem?_runInstances hx, transactAll_regs]
  rfl

/-- Settles O50: each place makes its own run, and a run from reset is known by its length. -/
theorem instancesShareNothing : Obligations.InstancesShareNothing := by
  refine ⟨fun qs _ _ _ hx => getElem?_runInstances hx qs, fun qs xs j k p hj hk hlength => ?copies⟩
  case copies =>
    rw [getElem?_runInstances_afterReset hj, getElem?_runInstances_afterReset hk, hlength]

end Sys2Proof.Proofs
end

-- ==== Reset and hazards: reset wins, the first request follows at once, and no run stops ====
section
/-! PROOF. The family of 70_reset_and_hazards.md: a reset edge zeroes both registers whatever is presented with it (rule R185),
the edge right after it may carry the first request (rule R189), and edges may follow one another without end (rule R190).

Of a reset edge only `rst` is read, so the pins beside it have no part in the outcome. The request behind it finds the reset
pair, from which `regsAfter_one` makes the first step of a run. That no run stops is `step_exists_next`, step after step. -/

namespace Sys2Proof.Proofs

open Sys2Proof.Machine Sys2Proof.Laws

/-! ### The reset edge -/

/-- Reset is decided before the other pins are looked at. -/
theorem step_reset {c : Cycle} (hrst : c.rst = true) (s : State) (rest : List Cycle) :
    step { s with inputs := c :: rest } = .next { s with regs := Regs.reset, inputs := rest } :=
  (step_cons rfl).trans (edge_reset hrst _)

/-- Settles O4: `step_reset` for pins with any request beside `rst`. -/
theorem resetEdgeWinsOverARequest : Obligations.ResetEdgeWinsOverARequest :=
  fun s _ _ rest => step_reset rfl s rest

/-! ### The request behind it -/

/-- At the reset pair a request makes the first step of a run, so that its word is the increment (rule R115). -/
theorem acceptRequest_of_regs_reset {s : State} (hregs : s.regs = Regs.reset) (p : Params) (project : Word → Word) :
    acceptRequest p project s =
      { regs := { state := p.inc, weyl := p.inc }
        inputs := s.inputs
        responses := s.responses ++ [project p.inc] } := by
  have hfirst : advance p s.regs = { state := p.inc, weyl := p.inc } := by
    rw [hregs]
    exact regsAfter_one p
  rw [acceptRequest, hfirst]

theorem step_request_of_regs_reset {s : State} (hregs : s.regs = Regs.reset) (cmd : Cmd) (rest : List Cycle) :
    step { s with inputs := Cycle.request cmd :: rest } =
      .next { regs := { state := Config.params.inc, weyl := Config.params.inc }
              inputs := rest
              responses := s.responses ++ [response cmd Config.params.inc] } := by
  have haccept := acceptRequest_of_regs_reset (s := { s with inputs := rest }) hregs Config.params (response cmd)
  rw [step_request, exec_decode, haccept]

/-- Settles O6: the first step leaves the reset pair, and the second accepts the request there. -/
theorem firstRequestMayFollowResetAtOnce : Obligations.FirstRequestMayFollowResetAtOnce := by
  intro s reqValid ignored cmd rest
  have hreset := step_reset (c := ⟨true, reqValid, ignored⟩) rfl s (Cycle.request cmd :: rest)
  have hrequest := step_request_of_regs_reset (resetEdge_regs s) cmd rest
  exact (core_run_succ hreset).trans ((core_run_succ hrequest).trans (core_run_zero _))

/-! ### Runs without end -/

/-- Settles O49, by induction on the number of steps: the first one has a next state, and the others run on from it. -/
theorem noRunEverStops : Obligations.NoRunEverStops := by
  intro s n
  induction n generalizing s with
  | zero => exact ⟨s, core_run_zero s⟩
  | succ n ih =>
    obtain ⟨t, hstep⟩ := step_exists_next s
    obtain ⟨u, hrun⟩ := ih t
    exact ⟨u, (core_run_succ hstep).trans hrun⟩

end Sys2Proof.Proofs
end

-- ==== Rows: the encoding summary as a partition of the command words ====
section
/-! PROOF. The encoding summary (30_encoding.md section 7): its rows partition the command words as the decoder does.

The five laws `RowSelects` say of each command that its row is selected by just the words that decode to it. A word decodes to
one command, so it selects the row of that one alone. -/

namespace Sys2Proof.Proofs

open Sys2Proof.Laws

theorem decode_eq_iff_selects (c : Cmd) (i : Instr) : decode c = i ↔ (encodingRow i).selects c = true := by
  cases i with
  | next32Lo => exact RowSelects.next32Lo c
  | next32Hi => exact RowSelects.next32Hi c
  | next32Lor => exact RowSelects.next32Lor c
  | next32Hir => exact RowSelects.next32Hir c
  | gen64 => exact RowSelects.gen64 c

/-- Settles O45: a word selects the rows of the commands it decodes to, which is one command. -/
theorem encodingRowsPartitionTheCommandWords : Obligations.EncodingRowsPartitionTheCommandWords :=
  fun c => ⟨(decode_eq_iff_selects c _).mp rfl, fun i hselects => ((decode_eq_iff_selects c i).mpr hselects).symm⟩

end Sys2Proof.Proofs
end
